-- ==== Sys2Proof/Word.lean ====
section
/-! DEFINITION. The word of the machine, the short address and the register index, with the plainest
arithmetic on them. spec/00_scope.md rules R7, R9, R10 and R11. -/

namespace Sys2Proof

/-- A word: "a 16-bit unsigned quantity" (R9). Every register and every memory cell holds one. -/
abbrev Word := BitVec 16

/-- A valid memory address and a Format 2 address field: 8 bits, 0..255 (R7 `ADDR_BITS`). -/
abbrev Addr := BitVec 8

/-- The index of a general register, 0..15 (R7 `NREGS`). -/
abbrev Reg := Fin 16

/-- `zext_16(v)`: an 8-bit address read as a 16-bit word with zero upper bits (R11). -/
def zext16 (a : Addr) : Word := a.setWidth 16

/-- `signed(v)`: the two's-complement reading of a word (R10). -/
def signed (v : Word) : Int := if v.toNat < 32768 then (v.toNat : Int) else (v.toNat : Int) - 65536

end Sys2Proof
end

