-- ==== Sys2Proof/Syntax.lean ====
section
/-! DEFINITION. The 16 instructions (spec/30_encoding.md R85, one constructor per row of spec/opcode_table.json)
and the commands of the debugger's command port (spec/60_exceptions.md R205). -/

namespace Sys2Proof

/-- One constructor per row of the opcode table, with the fields the instruction uses (R85, R87); a field that an
instruction ignores is no part of it. Every register index is below 16 and every address below 256 by its type. -/
inductive Instr where
  /-- op 0, `HALT` (R110). -/
  | halt
  /-- op 1, `ADD rd, rs, rt` (R121). -/
  | add (rd rs rt : Reg)
  /-- op 2, `SUB rd, rs, rt` (R122). -/
  | sub (rd rs rt : Reg)
  /-- op 3, `AND rd, rs, rt` (R123). -/
  | and (rd rs rt : Reg)
  /-- op 4, `XOR rd, rs, rt` (R124). -/
  | xor (rd rs rt : Reg)
  /-- op 5, `SHL rd, rs, rt` (R125). -/
  | shl (rd rs rt : Reg)
  /-- op 6, `SHR rd, rs, rt` (R126). -/
  | shr (rd rs rt : Reg)
  /-- op 7, `LOADI rd, imm` (R141). -/
  | loadi (rd : Reg) (addr : Addr)
  /-- op 8, `LOAD rd, addr` (R142). -/
  | load (rd : Reg) (addr : Addr)
  /-- op 9, `STORE rd, addr` (R143). -/
  | store (rd : Reg) (addr : Addr)
  /-- op 10, `LOADR rd, [rt]` (R144). -/
  | loadr (rd rt : Reg)
  /-- op 11, `STORER rd, [rt]` (R145). -/
  | storer (rd rt : Reg)
  /-- op 12, `BEQZ rd, addr` (R161). -/
  | beqz (rd : Reg) (addr : Addr)
  /-- op 13, `BGTZ rd, addr` (R162). -/
  | bgtz (rd : Reg) (addr : Addr)
  /-- op 14, `JR rd` (R163). -/
  | jr (rd : Reg)
  /-- op 15, `JALR rd, addr` (R164). -/
  | jalr (rd : Reg) (addr : Addr)
  deriving DecidableEq, Repr

/-- The argument of the debugger's `list` command (R205, R214). -/
inductive ListArg where
  /-- No argument: the window is centred on the current address, `pc`. -/
  | here
  /-- A window centred on an address. -/
  | around (a : Nat)
  /-- The explicit inclusive range `A..B`. -/
  | range (a b : Nat)
  /-- An argument that is not a number or a range of numbers. -/
  | malformed
  deriving DecidableEq, Repr

/-- The abstract host commands of the command port, arguments already converted to numbers (R205). An `Option Nat`
argument is `none` where the host's text was not a number. The yes/no answers are Booleans (D25).
notes/assumptions/14.md. -/
inductive Command where
  /-- `run` (R206). -/
  | run (confirm : Bool)
  /-- `step` (R207). -/
  | step
  /-- `continue` (R208). -/
  | cont
  /-- `next` (R209). -/
  | next (confirm : Bool)
  /-- `break <addr>` (R210). -/
  | brk (a : Option Nat)
  /-- `delete <n>`, 1-based (R211). -/
  | delete (n : Option Nat)
  /-- `info` (R212). -/
  | info
  /-- `verbose` (R213). -/
  | verbose
  /-- `noverbose` (R213). -/
  | noVerbose
  /-- `list` (R214). -/
  | list (arg : ListArg)
  /-- `reg` (R215). -/
  | reg
  /-- `help` (R216). -/
  | help
  /-- `quit` (R217). -/
  | quit
  /-- Anything else (R218). -/
  | unrecognized
  deriving DecidableEq, Repr

end Sys2Proof
end

