-- ==== Sys2Proof/Decode.lean ====
section
/-! DEFINITION. The decoder, a total function of the 16 bits of a word, and the encoder, both from the tables of
spec/30_encoding.md R81 to R87. -/

namespace Sys2Proof

/-- `field(ir, i) = ir[4i+3:4i]`: nibble `i` of a word, 0 the least significant (R82). -/
def field (w : Word) (i : Nat) : BitVec 4 := w.extractLsb' (4 * i) 4

/-- A register field: nibble `i` as a register index (R81). -/
def regField (w : Word) (i : Nat) : Reg := (field w i).toFin

/-- `addr = ir[7:0]`, unsigned, never extended by its sign, never scaled (R84). -/
def addrField (w : Word) : Addr := w.extractLsb' 0 8

/-- Format 1 with all three register fields: the operands `rd, rs, rt` (R83). -/
def readRegs (f : Reg → Reg → Reg → Instr) (w : Word) : Instr := f (regField w 2) (regField w 1) (regField w 0)

/-- Format 1 where `rs` is ignored: the operands `rd, rt` (R87). -/
def readRdRt (f : Reg → Reg → Instr) (w : Word) : Instr := f (regField w 2) (regField w 0)

/-- Format 2: the operands `rd, addr` (R84). -/
def readRdAddr (f : Reg → Addr → Instr) (w : Word) : Instr := f (regField w 2) (addrField w)

/-- The opcode map: at index `op`, how the operands of that row are read from the word. All 16 values are assigned
(R85, R86); the bits of a field that an instruction does not use are dropped (R87). -/
def opcodeMap : Vector (Word → Instr) 16 := #v[
  fun _ => .halt,
  readRegs .add,
  readRegs .sub,
  readRegs .and,
  readRegs .xor,
  readRegs .shl,
  readRegs .shr,
  readRdAddr .loadi,
  readRdAddr .load,
  readRdAddr .store,
  readRdRt .loadr,
  readRdRt .storer,
  readRdAddr .beqz,
  readRdAddr .bgtz,
  fun w => .jr (regField w 2),
  readRdAddr .jalr]

/-- The instruction a word is: the opcode `ir[15:12]` alone selects it; there is no failure case (R82, R85, R103). -/
def decode (w : Word) : Instr := opcodeMap.get (regField w 3) w

/-- A register index as the 4 bits of its field. -/
def nibble (r : Reg) : BitVec 4 := BitVec.ofFin r

/-- Format 1, `op ++ rd ++ rs ++ rt` (R83). -/
def format1 (op : BitVec 4) (rd rs rt : BitVec 4) : Word := op ++ rd ++ rs ++ rt

/-- Format 2, `op ++ rd ++ addr` (R84). -/
def format2 (op : BitVec 4) (rd : BitVec 4) (addr : Addr) : Word := op ++ rd ++ addr

/-- The canonical word of an instruction: its row of R85, with 0 in every ignored field (R87, R89). -/
def encode : Instr → Word
  | .halt => format1 0x0#4 0#4 0#4 0#4
  | .add rd rs rt => format1 0x1#4 (nibble rd) (nibble rs) (nibble rt)
  | .sub rd rs rt => format1 0x2#4 (nibble rd) (nibble rs) (nibble rt)
  | .and rd rs rt => format1 0x3#4 (nibble rd) (nibble rs) (nibble rt)
  | .xor rd rs rt => format1 0x4#4 (nibble rd) (nibble rs) (nibble rt)
  | .shl rd rs rt => format1 0x5#4 (nibble rd) (nibble rs) (nibble rt)
  | .shr rd rs rt => format1 0x6#4 (nibble rd) (nibble rs) (nibble rt)
  | .loadi rd addr => format2 0x7#4 (nibble rd) addr
  | .load rd addr => format2 0x8#4 (nibble rd) addr
  | .store rd addr => format2 0x9#4 (nibble rd) addr
  | .loadr rd rt => format1 0xA#4 (nibble rd) 0#4 (nibble rt)
  | .storer rd rt => format1 0xB#4 (nibble rd) 0#4 (nibble rt)
  | .beqz rd addr => format2 0xC#4 (nibble rd) addr
  | .bgtz rd addr => format2 0xD#4 (nibble rd) addr
  | .jr rd => format1 0xE#4 (nibble rd) 0#4 0#4
  | .jalr rd addr => format2 0xF#4 (nibble rd) addr

/-- The number of the opcode of each instruction (R85). -/
def Instr.opcode : Instr → BitVec 4
  | .halt => 0x0#4
  | .add _ _ _ => 0x1#4
  | .sub _ _ _ => 0x2#4
  | .and _ _ _ => 0x3#4
  | .xor _ _ _ => 0x4#4
  | .shl _ _ _ => 0x5#4
  | .shr _ _ _ => 0x6#4
  | .loadi _ _ => 0x7#4
  | .load _ _ => 0x8#4
  | .store _ _ => 0x9#4
  | .loadr _ _ => 0xA#4
  | .storer _ _ => 0xB#4
  | .beqz _ _ => 0xC#4
  | .bgtz _ _ => 0xD#4
  | .jr _ => 0xE#4
  | .jalr _ _ => 0xF#4

/-- The bits of a word that its instruction uses, as a mask: all but those written `x` in the patterns of R85. -/
def usedBits (w : Word) : Word :=
  match regField w 3 with
  | 0 => 0xF000#16
  | 10 => 0xFF0F#16
  | 11 => 0xFF0F#16
  | 14 => 0xFF00#16
  | _ => 0xFFFF#16

/-- The instruction read from the `nbits` low bits of `w`, every bit above them 0. An instruction is one 16-bit word in
one memory cell (R80), so there is nothing to order; no instruction is longer. -/
def decodeTableWord (nbits w : Nat) : Option Instr :=
  if nbits ≤ 16 then some (decode (BitVec.ofNat 16 (w % 2 ^ nbits))) else none

end Sys2Proof
end

