-- ==== Sys2Proof/Machine/Flags.lean ====
section
/-! DEFINITION. The core has no flags and no condition codes (spec/10_state.md R26): the conditions below are computed
from a register at the moment of the branch or the shift (spec/43_control.md R160). -/

namespace Sys2Proof.Machine

/-- `x[rd] = 0`, all 16 bits tested (R161). -/
def isZero (v : Word) : Bool := decide (v = 0x0000#16)

/-- A negative word: above 32767, bit 15 set (R10). -/
def isNegative (v : Word) : Bool := decide (32767 < v.toNat)

/-- `0 < x[rd] < 32768`: positive in the signed reading (R162). -/
def isPositive (v : Word) : Bool := decide (0 < v.toNat) && decide (v.toNat < 32768)

end Sys2Proof.Machine
end

