-- ==== Sys2Proof/Config.lean ====
section
/-! DEFINITION. What an implementation fixes (spec/00_scope.md R7) and the free values: what the spec
leaves without a value. A free value is an opaque constant, so that nothing in Lean can evaluate it or prove a value
of it. -/

namespace Sys2Proof.Config

/-- `ENTRY`: the value of `pc` after either reset (R7, R23, R244). -/
def entry : Word := 0x0010#16

/-- `IO_ADDR`: the memory-mapped I/O address (R7, R60). -/
def ioAddr : Addr := 0xFF#8

/-- `MEMWORDS`: the number of memory words, addresses 0 to 255 (R7, R50). -/
def memWords : Nat := 256

/-- `NBP`: the number of breakpoint slots (R7, R32). -/
def nbp : Nat := 16

/-- What a memory address that the list does not name reads as.
DESIGN CHOICE, notes/assumptions/3.md: a matter of representation, since `IMAGE` is a parameter of the run. -/
def unlistedWord : Word := 0x0000#16

/-- FREE VALUE (R204, D27, U7): the instruction word a trace shows when `pc > 255`, "unspecified (any value)".
Applied to the state's counter `freeCount`. notes/assumptions/8.md. -/
opaque traceWordOutside : Nat → Word

/-- FREE VALUE (R211, D23, U11): whether deleting a slot that is already `EMPTY` is also reported as
*InvalidBreakpointReference*. Applied to the state's counter `freeCount`. notes/assumptions/8.md. -/
opaque reportsEmptyDelete : Nat → Bool

/-- FREE VALUE (R214, D30): which of the two middle cells of a window of even size holds the address `list` centres it on,
the upper (`true`) or the lower; from the window's size and the address. notes/assumptions/8.md. -/
opaque listEvenUpper : Nat → Nat → Bool

/-- FREE VALUE (R214, D30): how many cells of the window of `list` lie before its address where the centred window would
reach beyond the ends of memory; the spec does not say how it is placed there. Used below the window's size, so that the
window holds the address. notes/assumptions/8.md. -/
opaque listEndBelow : Nat → Nat → Nat

/-- FREE VALUE (R214, D30): the first address of the window of `list` where the current address is above 255 and no memory
lies around it. notes/assumptions/8.md. -/
opaque listFirst : Nat → Nat → Nat

end Sys2Proof.Config
end

