-- ==== Sys2Proof/Machine/State.lean ====
section
/-! DEFINITION. The state of the machine as plain data (spec/10_state.md, spec/20_memory.md R50), the reasons a step can
stop, and the state right after reset (spec/70_reset_and_hazards.md R242). -/

namespace Sys2Proof.Machine

/-- `Outcome.fault` is raised by nothing: the two faults of the spec (R180) are taken, as the spec describes their entry
(R183), in a next state whose `status` is `FAULTED`. The type therefore has no value.
notes/assumptions/9.md, safe. -/
inductive Fault where
  deriving DecidableEq, Repr

/-- Why a step has no meaning. -/
inductive Refusal where
  /-- An instruction whose meaning is not written yet, by its mnemonic: raised by an arm of `exec` only, and by none of
  them now. Safe: the machine stops where the hardware goes on. -/
  | notModelled (mnemonic : String)
  deriving DecidableEq, Repr

/-- `status`, the run status (R28). -/
inductive Status where
  | active | halted | quit | faulted
  deriving DecidableEq, Repr

/-- `cause`, the first half of the fault record (R29). -/
inductive Cause where
  | none | illegalAddress | illegalFetch
  deriving DecidableEq, Repr

/-- `mode`, the debugger mode (R31, R201). -/
inductive Mode where
  | stopped | running | step
  deriving DecidableEq, Repr

/-- Where the controller stands in its outer loop (R202). The spec gives the loop as pseudocode; the position in it is
the model's own field. notes/assumptions/1.md. -/
inductive Phase where
  /-- Items 1 and 2: the breakpoint check and the trace come next. -/
  | check
  /-- Item 3: the command loop is asking the host (the reference port `dbg_cmd_ready` of R226 is high). -/
  | prompt
  /-- Item 4: one instruction comes next. -/
  | execute
  deriving DecidableEq, Repr

/-- Memory as the list of its cells, an address and its word: the smallest thing memory addresses is a word (R50, R57).
An address that is not listed reads as `Config.unlistedWord`. notes/assumptions/3.md. -/
abbrev Memory := List (Nat × Word)

/-- `Memory.wf` from address `lo` on. -/
def Memory.wfFrom : Nat → Memory → Bool
  | _, [] => true
  | lo, (k, v) :: m =>
    decide (lo ≤ k) && decide (k < Config.memWords) && decide (v ≠ Config.unlistedWord) && Memory.wfFrom (k + 1) m

/-- The one canonical form: addresses strictly rising, all in 0..255, and no entry that reads as an unlisted address
does. Memories that read alike are equal lists. -/
def Memory.wf (m : Memory) : Bool := Memory.wfFrom 0 m

/-- The open parameters of a run (R8). No step changes one. `CYCLE_W` is not among them: the model's counter is unbounded
(D6). -/
structure Params where
  /-- `IMAGE`: the memory contents the loader produced; memory takes this value at reset. -/
  image : Memory
  /-- The Input Queue, the first part of `INPUT`: the words supplied before the run (R191 (a)). -/
  inQueue : List Word
  /-- `DEBUG_EN`: whether the debugger is enabled for this run. -/
  debugEn : Bool
  /-- `RESET_REWINDS_INPUT`: whether a machine reset puts the input cursor back to the start. -/
  resetRewindsInput : Bool
  /-- `LIST_WINDOW`: the size of the window of the `list` command; affects no machine state. -/
  listWindow : Nat
  deriving DecidableEq, Repr

/-- What the debugger unit shows the host: announcements (R203, R204), answers of the inspecting commands (R212, R214 to
R216) and error reports (R185, R210, R211, R218). The texts are out of scope (R4). -/
inductive Report where
  /-- `BreakHit(index, address)`, the index counted from 1 (R203). -/
  | breakHit (index : Nat) (address : Word)
  /-- `Trace(pc, mem[pc])` (R204). -/
  | trace (pc ir : Word)
  /-- `info`: the pairs (slot number from 1, address) of the active breakpoints (R212). -/
  | breakpoints (active : List (Nat × Addr))
  /-- `list`: addresses and their words (R214). -/
  | memory (cells : List (Nat × Word))
  /-- `reg`: the 16 registers (R215). -/
  | registers (regs : Vector Word 16)
  /-- `help` (R216). -/
  | help
  /-- A bad argument of `break` or `list` (R210, R218). -/
  | badArgument
  /-- *BreakpointTableFull* (R210). -/
  | breakpointTableFull
  /-- *InvalidBreakpointReference* (R211). -/
  | invalidBreakpointReference
  deriving DecidableEq, Repr

/-- Every piece of state the spec gives the machine (the table of spec/10_state.md), then what the model adds. -/
structure State where
  /-- `x[0..15]`, the general registers, none hardwired (R20, R21). -/
  regs : Vector Word 16
  /-- `pc`, 16 bits (R23, R24). -/
  pc : Word
  /-- `mem[0..255]` (R50). -/
  mem : Memory
  /-- `cycles`, an unbounded natural number (R27, D6). notes/assumptions/16.md. -/
  cycles : Nat
  /-- `status` (R28). -/
  status : Status
  /-- `cause` (R29). -/
  cause : Cause
  /-- `fault_addr` (R29). -/
  faultAddr : Word
  /-- `mode` (R31). -/
  mode : Mode
  /-- `bp[0..15]`, each `EMPTY` (`none`) or an address (R32). -/
  bp : Vector (Option Addr) 16
  /-- `bp_n`, 0..16 (R33). -/
  bpN : Nat
  /-- `verbose` (R34). -/
  verbose : Bool
  /-- `started` (R35). -/
  started : Bool
  /-- `in_pos` (R36). -/
  inPos : Nat
  /-- `out_log`, oldest first (R37). -/
  outLog : List Word
  /-- The open parameters of the run (R8). -/
  params : Params
  /-- MODEL: the position in the controller's outer loop (R202). notes/assumptions/1.md. -/
  phase : Phase
  /-- MODEL, the host's side: the words the host will enter interactively, next first; the second part of `INPUT`
  (R191 (b)). Empty means the host supplies no further word. notes/assumptions/5.md. -/
  typed : List Word
  /-- MODEL, the host's side: the commands the host will give when asked, next first (R205). Empty means the host gives
  no further command. notes/assumptions/6.md. -/
  commands : List Command
  /-- MODEL: what the debugger unit has shown the host so far, oldest first. Nothing reads it. notes/assumptions/7.md. -/
  reports : List Report
  /-- MODEL: how many free values have been taken. notes/assumptions/8.md. -/
  freeCount : Nat
  deriving DecidableEq, Repr

/-- The parameters of `State.reset`: an image of `0x0000` words, no queued input, the debugger disabled.
DESIGN CHOICE, notes/assumptions/4.md: the spec leaves every one to the run. -/
def Params.default : Params where
  image := []
  inQueue := []
  debugEn := false
  resetRewindsInput := false
  listWindow := 16

/-- The machine right after a full reset (R242) with the parameters `Params.default`: the debugger is disabled, so its
state is not present and stands as R31 says it is treated (`mode = RUNNING`, slots `EMPTY`, `verbose = false`). -/
def State.reset : State where
  regs := Vector.replicate 16 0x0000#16
  pc := Config.entry
  mem := []
  cycles := 0
  status := .active
  cause := .none
  faultAddr := 0x0000#16
  mode := .running
  bp := Vector.replicate 16 none
  bpN := 0
  verbose := false
  started := false
  inPos := 0
  outLog := []
  params := Params.default
  phase := .check
  typed := []
  commands := []
  reports := []
  freeCount := 0

end Sys2Proof.Machine
end

