-- ==== Sys2Proof/Machine/Ops.lean ====
section
/-! DEFINITION. The named operations over registers, memory, console, faults and reset that the meanings share. -/

namespace Sys2Proof.Machine

/-! ## Memory (spec/20_memory.md R50) -/

/-- `mem[a]`: the word listed at `a`, or what an unlisted address reads as. -/
def Memory.read : Memory → Nat → Word
  | [], _ => Config.unlistedWord
  | (k, v) :: m, a => if a = k then v else Memory.read m a

/-- The memory with one cell put in front of cells of higher addresses, unless it reads as an unlisted one does. -/
def Memory.cons (a : Nat) (v : Word) (m : Memory) : Memory :=
  if v = Config.unlistedWord then m else (a, v) :: m

/-- `mem[a] <- v`: the other 255 words stay as they were; the canonical form is kept. -/
def Memory.write : Memory → Nat → Word → Memory
  | [], a, v => Memory.cons a v []
  | (k, w) :: m, a, v =>
    if a < k then Memory.cons a v ((k, w) :: m)
    else if a = k then Memory.cons a v m
    else (k, w) :: Memory.write m a v

/-- `MemRead(a, 16)`: no side effect at any address (R11, R50, R59). -/
def State.memRead (s : State) (a : Addr) : Word := s.mem.read a.toNat

/-- `MemWrite(a, 16, v)` (R11, R50). -/
def State.memWrite (s : State) (a : Addr) (v : Word) : State := { s with mem := s.mem.write a.toNat v }

/-! ## Registers and program counter (spec/10_state.md R20 to R25, R27) -/

/-- `x[i]` (R11, R20). -/
def State.reg (s : State) (i : Reg) : Word := s.regs[i.val]

/-- `x[i] <- v`; register 0 is written like any other (R21). -/
def State.setReg (s : State) (i : Reg) (v : Word) : State := { s with regs := s.regs.set i.val v }

/-- `pc <- t`, not checked (R24, R160). -/
def State.setPc (s : State) (t : Word) : State := { s with pc := t }

/-- The increment after the fetch and before the instruction executes (R102). -/
def State.advance (s : State) : State := { s with pc := s.pc + 1#16 }

/-- The cycle count at the end of an instruction that completed, every one but `HALT` (R104). -/
def State.retire (s : State) : State := { s with cycles := s.cycles + 1 }

/-- How an instruction other than `HALT` that completed ends: its effect, counted (R100, R104). -/
def complete (s : State) : Host.Outcome State Fault Refusal := .next s.retire

/-! ## Taking a fault (spec/60_exceptions.md R183, R184)

A fault goes to no handler and there is no return from one: `FAULTED` is left only by a full reset. -/

/-- Fault entry: exactly the fault record and the status (R183). -/
def State.raiseFault (s : State) (c : Cause) (a : Word) : State :=
  { s with cause := c, faultAddr := a, status := .faulted }

/-- The code of the run status (R28). -/
def Status.code : Status → Nat
  | .active => 0
  | .halted => 1
  | .quit => 2
  | .faulted => 3

/-- The code of a fault (R29, R180). -/
def Cause.code : Cause → Nat
  | .none => 0
  | .illegalAddress => 1
  | .illegalFetch => 2

/-- The exit status of a run that has ended: 0 after `HALTED` and `QUIT` (R28), the cause's code after a fault (R183). -/
def State.exitStatus (s : State) : Option Nat :=
  match s.status with
  | .active => none
  | .halted => some 0
  | .quit => some 0
  | .faulted => some s.cause.code

/-! ## The console (spec/60_exceptions.md R190 to R193) -/

/-- `InRead()`: the word at the cursor and the state after taking it: the Input Queue first, then the words the host
enters (R36, R191). `none` where the host has supplied no word: the instruction waits (R106). -/
def State.inRead (s : State) : Option (Word × State) :=
  match s.params.inQueue[s.inPos]? with
  | some w => some (w, { s with inPos := s.inPos + 1 })
  | none =>
    match s.typed with
    | [] => none
    | w :: ws => some (w, { s with inPos := s.inPos + 1, typed := ws })

/-- `OutWrite(v)`: appends to `out_log`; never waits, never fails (R37, R193). -/
def State.outWrite (s : State) (v : Word) : State := { s with outLog := s.outLog ++ [v] }

/-! ## Reset (spec/70_reset_and_hazards.md R241, R242) -/

/-- `MachineReset()` (R241). -/
def State.machineReset (s : State) : State :=
  { s with
    pc := Config.entry
    regs := Vector.replicate 16 0x0000#16
    cycles := 0
    mem := s.params.image
    inPos := if s.params.resetRewindsInput then 0 else s.inPos }

/-- `FullReset()`, the start of a run (R242). The debugger's state exists only when `DEBUG_EN`; without it, it stands as
R31 says it is treated. What the host will do is not the machine's to reset. notes/assumptions/10.md. -/
def State.fullReset (s : State) : State :=
  { s.machineReset with
    status := .active
    cause := .none
    faultAddr := 0x0000#16
    inPos := 0
    outLog := []
    mode := if s.params.debugEn then .stopped else .running
    started := false
    verbose := false
    bp := Vector.replicate 16 none
    bpN := 0
    phase := .check
    reports := [] }

end Sys2Proof.Machine
end

