-- ==== Sys2Proof/Machine/Alu.lean ====
section
/-! DEFINITION. Opcodes 1 to 6: ADD SUB AND XOR SHL SHR (spec/41_alu.md). -/

namespace Sys2Proof.Machine

/-- `(v * 2^n) mod 65536`; every amount of 16 or more gives 0 (R125). -/
def shiftLeft (v n : Word) : Word := if n.toNat ≤ 15 then v <<< n.toNat else 0x0000#16

/-- The unsigned shift of R126, `tmp`. -/
def shrTmp (v n : Word) : Word := if n.toNat ≤ 15 then v >>> n.toNat else 0x0000#16

/-- The sign-extension mask of R126: bits 15 down to 16-n set, all 16 for an amount of 16 or more. -/
def shrMask (n : Word) : Word :=
  if n.toNat ≤ 15 then BitVec.ofNat 16 (65535 * 2 ^ (16 - n.toNat)) else 0xFFFF#16

/-- The arithmetic shift right of R126. -/
def shiftRightArith (v n : Word) : Word :=
  if isNegative v then shrTmp v n ||| shrMask n else shrTmp v n

/-- Common to opcodes 1 to 6 (R120): both sources are read before the destination is written. -/
def aluOp (f : Word → Word → Word) (rd rs rt : Reg) (s : State) : Host.Outcome State Fault Refusal :=
  complete (s.advance.setReg rd (f (s.reg rs) (s.reg rt)))

/-- `ADD`: `x[rd] <- (x[rs] + x[rt]) mod 65536` (R121). -/
def execAdd (rd rs rt : Reg) (s : State) : Host.Outcome State Fault Refusal := aluOp (fun a b => a + b) rd rs rt s

/-- `SUB`: `x[rd] <- (x[rs] - x[rt]) mod 65536` (R122). -/
def execSub (rd rs rt : Reg) (s : State) : Host.Outcome State Fault Refusal := aluOp (fun a b => a - b) rd rs rt s

/-- `AND`: `x[rd] <- x[rs] & x[rt]` (R123). -/
def execAnd (rd rs rt : Reg) (s : State) : Host.Outcome State Fault Refusal := aluOp (fun a b => a &&& b) rd rs rt s

/-- `XOR`: `x[rd] <- x[rs] ^ x[rt]` (R124). -/
def execXor (rd rs rt : Reg) (s : State) : Host.Outcome State Fault Refusal := aluOp (fun a b => a ^^^ b) rd rs rt s

/-- `SHL`: the amount is the whole of `x[rt]` (R125). -/
def execShl (rd rs rt : Reg) (s : State) : Host.Outcome State Fault Refusal := aluOp shiftLeft rd rs rt s

/-- `SHR`: the amount is the whole of `x[rt]` (R126). -/
def execShr (rd rs rt : Reg) (s : State) : Host.Outcome State Fault Refusal := aluOp shiftRightArith rd rs rt s

end Sys2Proof.Machine
end

