-- ==== Sys2Proof/Machine/Operands.lean ====
section
/-! DEFINITION. The three ways an instruction names a datum (spec/42_load_store.md R140), and no others. -/

namespace Sys2Proof.Machine

/-- Immediate: the value `zext_16(addr)`, no memory access (R140, R141); also the target of a branch (R160). -/
def immediate (addr : Addr) : Word := zext16 addr

/-- Direct: `EA = addr`, which cannot be out of range (R140, R61). -/
def directAddress (addr : Addr) : Addr := addr

/-- An address word is valid exactly when it is at most 255 (R146), and a fetch address likewise (R101). -/
def inMemory (a : Word) : Bool := decide (a.toNat ≤ 255)

/-- The low 8 bits of an address word, the address itself where `inMemory` holds. -/
def toAddr (a : Word) : Addr := a.setWidth 8

/-- Register indirect: `EA = x[rt]`, all 16 bits; `none` where it is invalid (R140, R146). -/
def State.indirectAddress (s : State) (rt : Reg) : Option Addr :=
  if inMemory (s.reg rt) then some (toAddr (s.reg rt)) else none

end Sys2Proof.Machine
end

