-- ==== Sys2Proof/Machine/Control.lean ====
section
/-! DEFINITION. Opcodes 12 to 15: BEQZ BGTZ JR JALR (spec/43_control.md). -/

namespace Sys2Proof.Machine

/-- A conditional branch: `pc <- zext_16(addr)` if the condition holds, else `pc` keeps the incremented value; it counts
one cycle, taken or not (R160). -/
def branchIf (c : Bool) (addr : Addr) (s : State) : Host.Outcome State Fault Refusal :=
  complete (if c then s.advance.setPc (immediate addr) else s.advance)

/-- `BEQZ`: branch if `x[rd] = 0` (R161). -/
def execBeqz (rd : Reg) (addr : Addr) (s : State) : Host.Outcome State Fault Refusal :=
  branchIf (isZero (s.reg rd)) addr s

/-- `BGTZ`: branch if `0 < x[rd] < 32768` (R162). -/
def execBgtz (rd : Reg) (addr : Addr) (s : State) : Host.Outcome State Fault Refusal :=
  branchIf (isPositive (s.reg rd)) addr s

/-- `JR`: `pc <- x[rd]`, all 16 bits, not checked (R163). -/
def execJr (rd : Reg) (s : State) : Host.Outcome State Fault Refusal :=
  complete (s.advance.setPc (s.reg rd))

/-- `JALR`: `x[rd] <- pc` (already incremented), then `pc <- zext_16(addr)` (R164). -/
def execJalr (rd : Reg) (addr : Addr) (s : State) : Host.Outcome State Fault Refusal :=
  complete ((s.advance.setReg rd s.advance.pc).setPc (immediate addr))

end Sys2Proof.Machine
end

