-- ==== Sys2Proof/Machine/LoadStore.lean ====
section
/-! DEFINITION. Opcodes 7 to 11: LOADI LOAD STORE LOADR STORER (spec/42_load_store.md). -/

namespace Sys2Proof.Machine

/-- `LOADI`: `x[rd] <- zext_16(addr)` (R141). -/
def execLoadi (rd : Reg) (addr : Addr) (s : State) : Host.Outcome State Fault Refusal :=
  complete (s.advance.setReg rd (immediate addr))

/-- `LOAD`: the console's next word when `addr = 255`, else `mem[addr]` (R142). With no word supplied the core is held at
the boundary before the instruction: nothing changes (R106). -/
def execLoad (rd : Reg) (addr : Addr) (s : State) : Host.Outcome State Fault Refusal :=
  if directAddress addr = Config.ioAddr then
    match s.advance.inRead with
    | some (w, s') => complete (s'.setReg rd w)
    | none => .next s
  else complete (s.advance.setReg rd (s.advance.memRead (directAddress addr)))

/-- The console's half of `STORE`: the word just stored is sent out when the address is 255 (R143). -/
def State.printStored (s : State) (addr : Addr) : State :=
  if addr = Config.ioAddr then s.outWrite (s.memRead Config.ioAddr) else s

/-- `STORE`: `mem[addr] <- x[rd]`, then `OutWrite(mem[255])` when `addr = 255` (R143). -/
def execStore (rd : Reg) (addr : Addr) (s : State) : Host.Outcome State Fault Refusal :=
  complete ((s.advance.memWrite (directAddress addr) (s.reg rd)).printStored (directAddress addr))

/-- `LOADR`: `x[rd] <- mem[x[rt]]`, plain memory at every valid address (R144, R56); `IllegalAddress` above 255 (R146). -/
def execLoadr (rd rt : Reg) (s : State) : Host.Outcome State Fault Refusal :=
  match s.advance.indirectAddress rt with
  | some a => complete (s.advance.setReg rd (s.advance.memRead a))
  | none => .next (s.advance.raiseFault .illegalAddress (s.reg rt))

/-- `STORER`: `mem[x[rt]] <- x[rd]`, plain memory at every valid address (R145, R56); `IllegalAddress` above 255 (R146). -/
def execStorer (rd rt : Reg) (s : State) : Host.Outcome State Fault Refusal :=
  match s.advance.indirectAddress rt with
  | some a => complete (s.advance.memWrite a (s.reg rd))
  | none => .next (s.advance.raiseFault .illegalAddress (s.reg rt))

end Sys2Proof.Machine
end

