-- ==== Sys2Proof/Machine/System.lean ====
section
/-! DEFINITION. Opcode 0: HALT (spec/40_step_halt.md R110), the only system instruction (R111). -/

namespace Sys2Proof.Machine

/-- What `HALT` does under the debugger: a full machine reset, then the debugger owns control (R110, R219). -/
def State.haltUnderDebugger (s : State) : State :=
  { s.machineReset with mode := .stopped, started := false }

/-- `HALT`: the end of the run with the debugger disabled, a machine reset with it enabled; `cycles` does not count it in
either case (R110, R104). -/
def execHalt (s : State) : Host.Outcome State Fault Refusal :=
  if s.params.debugEn then .next s.advance.haltUnderDebugger else .next { s.advance with status := .halted }

end Sys2Proof.Machine
end

