-- ==== Sys2Proof/Machine/Dispatch.lean ====
section
/-! DEFINITION. Dispatch: the opcode alone selects one of the 16 instruction rules (spec/40_step_halt.md R103). The state
given to a meaning is the one at the fetch: its pc is the address of the instruction, and the meaning makes the increment
(R102) and the cycle count (R104) itself, by the shared operations State.advance and complete.
notes/assumptions/12.md. -/

namespace Sys2Proof.Machine

def exec (i : Instr) (s : State) : Host.Outcome State Fault Refusal :=
  match i with
  | .halt => Sys2Proof.Machine.execHalt s
  | .add rd rs rt => Sys2Proof.Machine.execAdd rd rs rt s
  | .sub rd rs rt => Sys2Proof.Machine.execSub rd rs rt s
  | .and rd rs rt => Sys2Proof.Machine.execAnd rd rs rt s
  | .xor rd rs rt => Sys2Proof.Machine.execXor rd rs rt s
  | .shl rd rs rt => Sys2Proof.Machine.execShl rd rs rt s
  | .shr rd rs rt => Sys2Proof.Machine.execShr rd rs rt s
  | .loadi rd addr => Sys2Proof.Machine.execLoadi rd addr s
  | .load rd addr => Sys2Proof.Machine.execLoad rd addr s
  | .store rd addr => Sys2Proof.Machine.execStore rd addr s
  | .loadr rd rt => Sys2Proof.Machine.execLoadr rd rt s
  | .storer rd rt => Sys2Proof.Machine.execStorer rd rt s
  | .beqz rd addr => Sys2Proof.Machine.execBeqz rd addr s
  | .bgtz rd addr => Sys2Proof.Machine.execBgtz rd addr s
  | .jr rd => Sys2Proof.Machine.execJr rd s
  | .jalr rd addr => Sys2Proof.Machine.execJalr rd addr s

end Sys2Proof.Machine
end

