-- ==== Sys2Proof/Machine/Engine.lean ====
section
/-! DEFINITION. The execution engine: one step of spec/40_step_halt.md R100. -/

namespace Sys2Proof

open Sys2Proof.Machine

/-- The instruction asks the console for a word: `LOAD` from 255, the only one that can wait (R106). -/
def Instr.readsConsole : Instr → Bool
  | .load _ addr => decide (directAddress addr = Config.ioAddr)
  | .halt => false
  | .add _ _ _ => false
  | .sub _ _ _ => false
  | .and _ _ _ => false
  | .xor _ _ _ => false
  | .shl _ _ _ => false
  | .shr _ _ _ => false
  | .loadi _ _ => false
  | .store _ _ => false
  | .loadr _ _ => false
  | .storer _ _ => false
  | .beqz _ _ => false
  | .bgtz _ _ => false
  | .jr _ => false
  | .jalr _ _ => false

end Sys2Proof

namespace Sys2Proof.Machine


/-- The instruction word at `pc`, a plain memory read also at address 255 (R101); `none` above 255. -/
def State.fetch (s : State) : Option Word :=
  if inMemory s.pc then some (s.memRead (toAddr s.pc)) else none

/-- `Step()`: fetch, decode and execute one instruction; `IllegalFetch(pc)` where there is no word to fetch (R100, R101,
R182). -/
def engineStep (s : State) : Host.Outcome State Fault Refusal :=
  match s.fetch with
  | some w => exec (decode w) s
  | none => .next (s.raiseFault .illegalFetch s.pc)

/-- The core is held at the boundary before a `LOAD` from 255: no word of `INPUT` is available (R106, R196 (b)). -/
def State.heldForInput (s : State) : Bool :=
  match s.fetch with
  | some w => (decode w).readsConsole && s.inRead.isNone
  | none => false

end Sys2Proof.Machine
end

