-- ==== Sys2Proof/WellFormed.lean ====
section
/-! DEFINITION. What a well-formed term is. An `Instr` needs no check: its register indices (`Fin 16`) and addresses
(`BitVec 8`) are bounded by their types, and there is no reserved instruction (spec/30_encoding.md R86). A debugger
command carries the host's numbers and is checked here: an ill-formed one is reported and changes nothing
(spec/60_exceptions.md R210, R211, R218). notes/assumptions/15.md. -/

namespace Sys2Proof

/-- A number the host gave that is an address of memory, 0..255. -/
def isAddress (a : Nat) : Bool := decide (a < Config.memWords)

/-- The argument of `list` names addresses of memory only. DESIGN CHOICE, notes/assumptions/14.md: the spec does not say
whether an address or a range end above 255 is rejected or cut. -/
def ListArg.wellFormed : ListArg → Bool
  | .here => true
  | .around a => isAddress a
  | .range a b => isAddress a && isAddress b
  | .malformed => false

/-- The arguments of a command are in the ranges its rule gives: `break` an address 0..255 (R210), `delete` a slot
number 1..16 (R211), `list` addresses of memory (R214). -/
def Command.wellFormed : Command → Bool
  | .brk (some a) => isAddress a
  | .brk none => false
  | .delete (some n) => decide (1 ≤ n) && decide (n ≤ Config.nbp)
  | .delete none => false
  | .list arg => arg.wellFormed
  | .run _ => true
  | .step => true
  | .cont => true
  | .next _ => true
  | .info => true
  | .verbose => true
  | .noVerbose => true
  | .reg => true
  | .help => true
  | .quit => true
  | .unrecognized => true

end Sys2Proof
end

