-- ==== Sys2Proof/Machine/Debugger.lean ====
section
/-! DEFINITION. The debugger unit (spec/60_exceptions.md section 8): the breakpoint check, the trace, the commands and the
outer loop around the engine. -/

namespace Sys2Proof.Machine

/-- What the unit shows the host is logged. -/
def State.report (s : State) (r : Report) : State := { s with reports := s.reports ++ [r] }

/-! ## Items 1 and 2 of the outer loop (R202) -/

/-- A slot matches when it is not `EMPTY` and its address equals `pc` (R203). -/
def slotMatches (pc : Word) (slot : Option Addr) : Bool :=
  match slot with
  | some a => decide (zext16 a = pc)
  | none => false

/-- The least matching slot, numbered from 0 (R203). -/
def State.matchingSlot (s : State) : Option Nat := s.bp.toList.findIdx? (slotMatches s.pc)

/-- Item 1: on a match `mode <- STEP` and the hit is announced, its index counted from 1 (R202, R203). -/
def State.breakCheck (s : State) : State :=
  match s.matchingSlot with
  | some i => { s with mode := .step }.report (.breakHit (i + 1) s.pc)
  | none => s

/-- Item 2: `Trace(pc, mem[pc])` when `verbose` or in `STEP` (R204). Above 255 the word part is a free value (D27). -/
def State.traceIfDue (s : State) : State :=
  if s.verbose || decide (s.mode = .step) then
    match s.fetch with
    | some w => s.report (.trace s.pc w)
    | none =>
      { s with freeCount := s.freeCount + 1 }.report (.trace s.pc (Config.traceWordOutside s.freeCount))
  else s

/-! ## The commands (R205 to R218) -/

/-- The command hands control to the engine: the program counts as started (R35) and the command loop is left (R202). -/
def State.resume (s : State) (m : Mode) : State := { s with mode := m, started := true, phase := .execute }

/-- `run` (R206). -/
def cmdRun (confirm : Bool) (s : State) : State :=
  if s.started then
    if confirm then s.machineReset.resume .running else s
  else s.resume .running

/-- `step` (R207). -/
def cmdStep (s : State) : State := s.resume .step

/-- `continue` (R208). -/
def cmdContinue (s : State) : State := s.resume .running

/-- `next` (R209). -/
def cmdNext (confirm : Bool) (s : State) : State :=
  if s.started || confirm then s.resume .step else s

/-- The first slot that is `EMPTY` (R210). -/
def State.emptySlot (s : State) : Option Nat := s.bp.toList.findIdx? Option.isNone

/-- Slot `i` set to `v`; the table has no other slots. -/
def State.setSlot (s : State) (i : Nat) (v : Option Addr) : State := { s with bp := s.bp.setIfInBounds i v }

/-- `break` with an address: the next slot while not all were handed out, else the first deleted one (R210). -/
def State.addBreakpoint (s : State) (a : Addr) : State :=
  if s.bpN < Config.nbp then { s.setSlot s.bpN (some a) with bpN := s.bpN + 1 }
  else
    match s.emptySlot with
    | some i => s.setSlot i (some a)
    | none => s.report .breakpointTableFull

/-- `break` (R210). -/
def cmdBreak (arg : Option Nat) (s : State) : State :=
  match arg with
  | some a => if isAddress a then s.addBreakpoint (BitVec.ofNat 8 a) else s.report .badArgument
  | none => s.report .badArgument

/-- `delete` with a slot number in 1..16: the slot is `EMPTY` afterwards; whether an already `EMPTY` one is also reported
is a free value (R211, D23). -/
def State.deleteBreakpoint (s : State) (n : Nat) : State :=
  if (s.bp[n - 1]?).join.isSome then s.setSlot (n - 1) none
  else
    let s' := { s with freeCount := s.freeCount + 1 }
    if Config.reportsEmptyDelete s.freeCount then s'.report .invalidBreakpointReference else s'

/-- `delete` (R211). -/
def cmdDelete (arg : Option Nat) (s : State) : State :=
  match arg with
  | some n =>
    if 1 ≤ n ∧ n ≤ Config.nbp then s.deleteBreakpoint n else s.report .invalidBreakpointReference
  | none => s.report .invalidBreakpointReference

/-- The active breakpoints, in increasing slot order: slot number from 1, and address (R212). -/
def State.activeBreakpoints (s : State) : List (Nat × Addr) :=
  s.bp.toList.zipIdx.filterMap (fun p => p.1.map (fun a => (p.2 + 1, a)))

/-- The cells of memory among the `n` addresses from `lo` on, with their words (R214). -/
def State.cellsFrom (s : State) (lo n : Nat) : List (Nat × Word) :=
  ((List.range n).map (fun k => lo + k)).filter isAddress |>.map (fun a => (a, s.mem.read a))

/-- How many of the `n` cells of a window centred on address `c` lie before `c` (R214): as many as after it when `n` is
odd; when it is even, one more or one fewer than after it, a free value. -/
def centredBelow (n c : Nat) : Nat :=
  if n % 2 = 1 then n / 2 else if Config.listEvenUpper n c then n / 2 else n / 2 - 1

/-- How many cells of the window of `n` cells of `list` lie before its address `c`: the centred window where that lies in
memory, else any number that leaves `c` in the window, a free value. notes/assumptions/8.md. -/
def windowBelow (n c : Nat) : Nat :=
  if centredBelow n c ≤ c ∧ c + n ≤ Config.memWords + centredBelow n c then centredBelow n c
  else Config.listEndBelow n c % n

/-- The window of `LIST_WINDOW` cells centred on an address (R214), without what lies outside memory. Around a `pc` above
255 it begins at a free value. notes/assumptions/8.md. -/
def State.windowAround (s : State) (c : Nat) : List (Nat × Word) :=
  let n := s.params.listWindow
  if isAddress c then
    let below := windowBelow n c
    s.cellsFrom (c - below) (c + n - below - (c - below))
  else s.cellsFrom (Config.listFirst n c) n

/-- `list` (R214): reads memory without side effect. DESIGN CHOICE, notes/assumptions/14.md: an address or a range end above
255 is a bad argument, so that the command shows no cell, and nothing is cut at 255; a range whose end lies before its
start shows no cell either. -/
def cmdList (arg : ListArg) (s : State) : State :=
  match arg with
  | .here => s.report (.memory (s.windowAround s.pc.toNat))
  | .around a => if isAddress a then s.report (.memory (s.windowAround a)) else s.report .badArgument
  | .range a b =>
    if isAddress a && isAddress b then s.report (.memory (s.cellsFrom a (b + 1 - a))) else s.report .badArgument
  | .malformed => s.report .badArgument

/-- Item 3: one command interpreted (R205 to R218). -/
def interpret (c : Command) (s : State) : State :=
  match c with
  | .run confirm => cmdRun confirm s
  | .step => cmdStep s
  | .cont => cmdContinue s
  | .next confirm => cmdNext confirm s
  | .brk a => cmdBreak a s
  | .delete n => cmdDelete n s
  | .info => s.report (.breakpoints s.activeBreakpoints)
  | .verbose => { s with verbose := true }
  | .noVerbose => { s with verbose := false }
  | .list arg => cmdList arg s
  | .reg => s.report (.registers s.regs)
  | .help => s.report .help
  | .quit => { s with status := .quit }
  | .unrecognized => s

/-! ## The outer loop (R202) -/

/-- Items 1 and 2, then on to item 3, which is passed over while `mode = RUNNING`. -/
def checkPhase (s : State) : State :=
  let t := s.breakCheck.traceIfDue
  { t with phase := if t.mode = .running then .execute else .prompt }

/-- One turn of item 3: the next command of the host; with none given, the controller waits and nothing changes (R196). -/
def promptPhase (s : State) : State :=
  if s.mode = .running then { s with phase := .execute }
  else
    match s.commands with
    | [] => s
    | c :: cs => interpret c { s with commands := cs }

/-- Item 4: one instruction, after which the loop begins again; held while its input word is not there (R106). -/
def executePhase (s : State) : Host.Outcome State Fault Refusal :=
  if s.heldForInput then .next s else engineStep { s with phase := .check }

/-- One action of the controller's outer loop (R202), the next by the position it stands at. -/
def controllerStep (s : State) : Host.Outcome State Fault Refusal :=
  match s.phase with
  | .check => .next (checkPhase s)
  | .prompt => .next (promptPhase s)
  | .execute => executePhase s

end Sys2Proof.Machine
end

