-- ==== Sys2Proof/Machine/HostSide.lean ====
section
/-! DEFINITION. What the host can do to the machine from outside (spec/00_scope.md R5): supply an input word, supply a
debugger command, start a run. None of them is a step of the core. -/

namespace Sys2Proof.Machine

/-- The host enters a word at the console (R191 (b)). -/
def State.hostTypes (s : State) (w : Word) : State := { s with typed := s.typed ++ [w] }

/-- The host gives a command (R205). -/
def State.hostCommands (s : State) (c : Command) : State := { s with commands := s.commands ++ [c] }

/-- The host starts a run with the given parameters: the full reset of R242 (power-on). -/
def State.startRun (p : Params) (s : State) : State := State.fullReset { s with params := p }

end Sys2Proof.Machine
end

