-- ==== Sys2Proof/Machine/Step.lean ====
section
/-! DEFINITION. One step of the machine, and the placing of an instruction where it is fetched next. -/

namespace Sys2Proof.Machine

/-- One step (R105): while `status = ACTIVE`, one instruction with the debugger disabled (R223) and one action of the
controller's loop with it enabled (R202). After the run has ended no step happens: the state stays as it is.
notes/assumptions/2.md. -/
def step (s : State) : Host.Outcome State Fault Refusal :=
  match s.status with
  | .active => if s.params.debugEn then controllerStep s else engineStep s
  | .halted => .next s
  | .quit => .next s
  | .faulted => .next s

/-- The word stored at the address in `pc`, where the next instruction is fetched (R101); nothing else changes. Above 255
there is no cell to hold it. notes/assumptions/11.md. -/
def State.withFetchWord (s : State) (nbits w : Nat) : State :=
  if inMemory s.pc then s.memWrite (toAddr s.pc) (BitVec.ofNat 16 (w % 2 ^ nbits)) else s

end Sys2Proof.Machine
end

