-- ==== Sys2Proof/Safety.lean ====
section
/-! DEFINITION. What a safe run is, the invariant of the machine, and the words the statements use about a step: which
instruction it executes, what that instruction may write. -/

namespace Sys2Proof.Machine

/-- A state of a safe run: no fatal fault was taken (spec/60_exceptions.md R180, R183). -/
def State.safe (s : State) : Prop := s.status ≠ .faulted

/-- The Machine State (registers, `pc`, cycle counter, memory) is as a machine reset leaves it
(spec/70_reset_and_hazards.md R241). -/
structure State.MachineIsReset (s : State) : Prop where
  pc : s.pc = Config.entry
  regs : s.regs = Vector.replicate 16 0x0000#16
  cycles : s.cycles = 0
  mem : s.mem = s.params.image

/-- The debugger unit is not present: its state stands as spec/10_state.md R31 treats it. -/
structure State.DebuggerAbsent (s : State) : Prop where
  mode : s.mode = .running
  bp : s.bp = Vector.replicate 16 none
  bpN : s.bpN = 0
  verbose : s.verbose = false
  started : s.started = false
  phase : s.phase = .check

/-- The invariant that a full reset establishes and every step keeps. -/
structure State.Inv (s : State) : Prop where
  /-- Memory keeps its canonical form, all its cells in 0..255 (spec/20_memory.md R50). -/
  mem_wf : s.mem.wf = true
  /-- So does the image it is reset to. -/
  image_wf : s.params.image.wf = true
  /-- `bp_n` is in 0..16 (spec/10_state.md R33). -/
  bpN_le : s.bpN ≤ 16
  /-- A slot that was never handed out is `EMPTY` (R33). -/
  bp_later : ∀ i (h : i < 16), s.bpN ≤ i → s.bp[i] = none
  /-- The fault record is written exactly when `status` becomes `FAULTED` (R29). -/
  faulted_iff : s.status = .faulted ↔ s.cause ≠ .none
  /-- Without a fault `fault_addr` is as after reset (R29). -/
  faultAddr_none : s.cause = .none → s.faultAddr = 0x0000#16
  /-- Both faults record an address outside memory (spec/60_exceptions.md R180). -/
  faultAddr_some : s.cause ≠ .none → 255 < s.faultAddr.toNat
  /-- `HALT` ends a run with the debugger disabled only (spec/40_step_halt.md R110). -/
  halted_disabled : s.status = .halted → s.params.debugEn = false
  /-- `quit` is a command of the debugger (R217). -/
  quit_enabled : s.status = .quit → s.params.debugEn = true
  /-- With the debugger disabled its state never changes (R223). -/
  absent : s.params.debugEn = false → s.DebuggerAbsent
  /-- "When `started` is false the machine is still in its reset state" (R206). -/
  unstarted : s.params.debugEn = true → s.started = false → s.MachineIsReset
  /-- Only a started program is `RUNNING` (R206, R208). -/
  running_started : s.params.debugEn = true → s.mode = .running → s.started = true
  /-- An instruction comes next only in a started program (R202, R206 to R209). -/
  execute_started : s.phase = .execute → s.started = true
  /-- The command loop asks only while `mode` is not `RUNNING` (R202, R221). -/
  prompt_not_running : s.phase = .prompt → s.mode ≠ .running

/-- The next step executes an instruction: the run is active and, with the debugger enabled, its loop stands at item 4
(spec/40_step_halt.md R105). -/
def State.executesNext (s : State) : Prop := s.status = .active ∧ (s.params.debugEn = true → s.phase = .execute)

/-- The controller's command loop is asking the host (spec/60_exceptions.md R202 item 3, R221). -/
def State.asksHost (s : State) : Prop :=
  s.status = .active ∧ s.params.debugEn = true ∧ s.phase = .prompt ∧ s.mode ≠ .running

/-- The instruction at `pc`, if there is a word there (R101). -/
def State.instrAtPc (s : State) : Option Instr := s.fetch.map decode

end Sys2Proof.Machine

namespace Sys2Proof

open Sys2Proof.Machine

/-- The general register an instruction writes when it completes: the column W of spec/10_state.md R22. -/
def Instr.destReg : Instr → Option Reg
  | .halt => none
  | .add rd _ _ => some rd
  | .sub rd _ _ => some rd
  | .and rd _ _ => some rd
  | .xor rd _ _ => some rd
  | .shl rd _ _ => some rd
  | .shr rd _ _ => some rd
  | .loadi rd _ => some rd
  | .load rd _ => some rd
  | .store _ _ => none
  | .loadr rd _ => some rd
  | .storer _ _ => none
  | .beqz _ _ => none
  | .bgtz _ _ => none
  | .jr _ => none
  | .jalr rd _ => some rd

/-- The instruction prints a word: `STORE` to 255, the only one that does (spec/60_exceptions.md R193). -/
def Instr.writesConsole : Instr → Bool
  | .store _ addr => decide (directAddress addr = Config.ioAddr)
  | .halt => false
  | .add _ _ _ => false
  | .sub _ _ _ => false
  | .and _ _ _ => false
  | .xor _ _ _ => false
  | .shl _ _ _ => false
  | .shr _ _ _ => false
  | .loadi _ _ => false
  | .load _ _ => false
  | .loadr _ _ => false
  | .storer _ _ => false
  | .beqz _ _ => false
  | .bgtz _ _ => false
  | .jr _ => false
  | .jalr _ _ => false

/-- The table of spec/10_state.md R25: the value of `pc` after an instruction fetched from `p = pc`, 0..255. -/
def Instr.pcAfter (i : Instr) (s : State) : Nat :=
  match i with
  | .halt => if s.params.debugEn then 16 else s.pc.toNat + 1
  | .beqz rd addr => if s.reg rd = 0x0000#16 then addr.toNat else s.pc.toNat + 1
  | .bgtz rd addr => if 0 < (s.reg rd).toNat ∧ (s.reg rd).toNat < 32768 then addr.toNat else s.pc.toNat + 1
  | .jr rd => (s.reg rd).toNat
  | .jalr _ addr => addr.toNat
  | .add _ _ _ => s.pc.toNat + 1
  | .sub _ _ _ => s.pc.toNat + 1
  | .and _ _ _ => s.pc.toNat + 1
  | .xor _ _ _ => s.pc.toNat + 1
  | .shl _ _ _ => s.pc.toNat + 1
  | .shr _ _ _ => s.pc.toNat + 1
  | .loadi _ _ => s.pc.toNat + 1
  | .load _ _ => s.pc.toNat + 1
  | .store _ _ => s.pc.toNat + 1
  | .loadr _ _ => s.pc.toNat + 1
  | .storer _ _ => s.pc.toNat + 1

/-- The address an instruction stores to, computed as its meaning computes it, and the register whose word it stores
there (spec/20_memory.md R51); `none` for an instruction, or an invalid indirect address, that stores nothing. -/
def Instr.storesTo (i : Instr) (s : State) : Option (Addr × Reg) :=
  match i with
  | .store rd addr => some (directAddress addr, rd)
  | .storer rd rt => (s.advance.indirectAddress rt).map (fun a => (a, rd))
  | .halt => none
  | .add _ _ _ => none
  | .sub _ _ _ => none
  | .and _ _ _ => none
  | .xor _ _ _ => none
  | .shl _ _ _ => none
  | .shr _ _ _ => none
  | .loadi _ _ => none
  | .load _ _ => none
  | .loadr _ _ => none
  | .beqz _ _ => none
  | .bgtz _ _ => none
  | .jr _ => none
  | .jalr _ _ => none

end Sys2Proof
end

