-- ==== Sys2Proof/Certificates/Slice0/Obligations.lean ====
section
/-! DEFINITION. The statements for the provers. Each docstring names the rules of spec/ it formalises; one that rests on
a field the model adds says so and names its log entry. -/

open Sys2Proof Sys2Proof.Machine

/-! ## Encoding (spec/30_encoding.md) -/

/-- Every instruction is read back from its canonical word, with every operand at every value (R81, R83 to R85). -/
def Obligations.DecodeOfEncodeIsTheInstruction : Prop := ∀ i : Instr, decode (encode i) = i

/-- Encoding what a word decodes to gives that word with its ignored bits cleared, and no other bit (R85, R87). -/
def Obligations.EncodeOfDecodeClearsOnlyIgnoredBits : Prop := ∀ w : Word, encode (decode w) = w &&& usedBits w

/-- R82: `field(ir, i) = (ir div 16^i) mod 16 = ir[4i+3:4i]`; `op`, `rd`, `rs`, `rt` are nibbles 3, 2, 1, 0. Also
the 8-bit `addr = rs * 16 + rt` (R84). -/
def Obligations.FieldsAreNibblesOfTheWord : Prop :=
  ∀ w : Word,
    (∀ i, i < 4 → (field w i).toNat = w.toNat / 16 ^ i % 16) ∧
    (∀ i k, i < 4 → k < 4 → (field w i).getLsbD k = w.getLsbD (4 * i + k)) ∧
    (∀ op rd rs rt : BitVec 4, w = op ++ rd ++ rs ++ rt →
      field w 3 = op ∧ field w 2 = rd ∧ field w 1 = rs ∧ field w 0 = rt) ∧
    (addrField w).toNat = (field w 1).toNat * 16 + (field w 0).toNat

/-- R85, R86, R103: the opcode nibble alone selects the instruction; every word decodes to one of the 16, the one its
opcode names. -/
def Obligations.OpcodeNibbleSelectsTheInstruction : Prop :=
  ∀ w : Word, (decode w).opcode = field w 3 ∧
    ∀ w' : Word, field w 3 = field w' 3 → (decode w).opcode = (decode w').opcode

/-- R87: the bits of a field an instruction does not mention have no effect: the 4096 words `0x0000` to `0x0FFF`, and no
others, are `HALT`; `rs` is ignored in `LOADR` and `STORER`; `rs` and `rt` are ignored in `JR`. The canonical form has 0 in
every ignored field. -/
def Obligations.IgnoredFieldsHaveNoEffect : Prop :=
  (∀ w : Word, decode w = .halt ↔ w.toNat ≤ 0x0FFF) ∧
  (∀ rd rt x y : BitVec 4, decode (0xA#4 ++ rd ++ x ++ rt) = decode (0xA#4 ++ rd ++ y ++ rt)) ∧
  (∀ rd rt x y : BitVec 4, decode (0xB#4 ++ rd ++ x ++ rt) = decode (0xB#4 ++ rd ++ y ++ rt)) ∧
  (∀ (rd : BitVec 4) (x y : BitVec 8), decode (0xE#4 ++ rd ++ x) = decode (0xE#4 ++ rd ++ y)) ∧
  decode 0xA3F4#16 = decode 0xA304#16 ∧ decode 0xE5AB#16 = decode 0xE500#16 ∧
  encode .halt = 0x0000#16 ∧
  (∀ rd rt : Reg, encode (.loadr rd rt) = 0xA#4 ++ nibble rd ++ 0x0#4 ++ nibble rt) ∧
  (∀ rd rt : Reg, encode (.storer rd rt) = 0xB#4 ++ nibble rd ++ 0x0#4 ++ nibble rt) ∧
  (∀ rd : Reg, encode (.jr rd) = 0xE#4 ++ nibble rd ++ 0x00#8)

/-- Words written out in the spec and the instructions it says they are (R81, R89, S11, V-M20, V-C13). -/
def Obligations.SpecWordsDecodeAsWritten : Prop :=
  decode 0x0000#16 = .halt ∧ decode 0x1331#16 = .add 3 3 1 ∧ decode 0x7100#16 = .loadi 1 0x00#8 ∧
  decode 0x93FF#16 = .store 3 0xFF#8 ∧ decode 0xB401#16 = .storer 4 1 ∧ decode 0xB2F1#16 = .storer 2 1 ∧
  decode 0xD112#16 = .bgtz 1 0x12#8 ∧ decode 0xEEAB#16 = .jr 14 ∧ decode 0xFE18#16 = .jalr 14 0x18#8

/-! ## Arithmetic, logic and shifts (spec/41_alu.md) -/

/-- R121, R122: encodings and results of `ADD` and `SUB`, wrapped modulo 65536, and the whole next state: no other
register, no memory word, no flag changes; no fault; for every choice of the three registers, coinciding ones too. -/
def Obligations.AddAndSubWriteTheWrappedResult : Prop :=
  ∀ (rd rs rt : Reg) (s : State),
    decode (0x1#4 ++ nibble rd ++ nibble rs ++ nibble rt) = .add rd rs rt ∧
    exec (.add rd rs rt) s = .next { s with
      regs := s.regs.set rd.val (BitVec.ofNat 16 (((s.reg rs).toNat + (s.reg rt).toNat) % 65536))
      pc := s.pc + 1#16, cycles := s.cycles + 1 } ∧
    decode (0x2#4 ++ nibble rd ++ nibble rs ++ nibble rt) = .sub rd rs rt ∧
    exec (.sub rd rs rt) s = .next { s with
      regs := s.regs.set rd.val (BitVec.ofNat 16
        (if (s.reg rt).toNat ≤ (s.reg rs).toNat then (s.reg rs).toNat - (s.reg rt).toNat
         else (s.reg rs).toNat + 65536 - (s.reg rt).toNat))
      pc := s.pc + 1#16, cycles := s.cycles + 1 }

/-- R123, R124: encodings and results of `AND` and `XOR`, bit by bit, and the whole next state. -/
def Obligations.AndAndXorWriteTheBitwiseResult : Prop :=
  ∀ (rd rs rt : Reg) (s : State),
    decode (0x3#4 ++ nibble rd ++ nibble rs ++ nibble rt) = .and rd rs rt ∧
    (∃ r : Word, (∀ k, k < 16 → r.getLsbD k = ((s.reg rs).getLsbD k && (s.reg rt).getLsbD k)) ∧
      exec (.and rd rs rt) s = .next { s with
        regs := s.regs.set rd.val r, pc := s.pc + 1#16, cycles := s.cycles + 1 }) ∧
    decode (0x4#4 ++ nibble rd ++ nibble rs ++ nibble rt) = .xor rd rs rt ∧
    (∃ r : Word, (∀ k, k < 16 → r.getLsbD k = ((s.reg rs).getLsbD k != (s.reg rt).getLsbD k)) ∧
      exec (.xor rd rs rt) s = .next { s with
        regs := s.regs.set rd.val r, pc := s.pc + 1#16, cycles := s.cycles + 1 })

/-- R125: `SHL` gives `(x[rs] * 2^n) mod 65536` for the whole register `n = x[rt]`, `0x0000` from 16 on. -/
def Obligations.ShlMultipliesByThePowerOfTwo : Prop :=
  ∀ (rd rs rt : Reg) (s : State),
    decode (0x5#4 ++ nibble rd ++ nibble rs ++ nibble rt) = .shl rd rs rt ∧
    ∃ r : Word, r.toNat = (s.reg rs).toNat * 2 ^ (s.reg rt).toNat % 65536 ∧
      (16 ≤ (s.reg rt).toNat → r = 0x0000#16) ∧
      exec (.shl rd rs rt) s = .next { s with
        regs := s.regs.set rd.val r, pc := s.pc + 1#16, cycles := s.cycles + 1 }

/-- R126: `SHR` gives `tmp`, with the sign-extension mask of the rule's pseudocode in it where the sign bit is set.
Equivalently the result is the floor of the signed reading divided by `2^n`, for every amount 0..65535. -/
def Obligations.ShrIsTheArithmeticShiftRight : Prop :=
  ∀ (rd rs rt : Reg) (s : State),
    decode (0x6#4 ++ nibble rd ++ nibble rs ++ nibble rt) = .shr rd rs rt ∧
    ∃ tmp mask r : Word,
      ((s.reg rt).toNat ≤ 15 →
        tmp.toNat = (s.reg rs).toNat / 2 ^ (s.reg rt).toNat ∧
        mask.toNat = 65535 * 2 ^ (16 - (s.reg rt).toNat) % 65536) ∧
      (15 < (s.reg rt).toNat → tmp = 0x0000#16 ∧ mask = 0xFFFF#16) ∧
      r = (if 32767 < (s.reg rs).toNat then tmp ||| mask else tmp) ∧
      signed r = signed (s.reg rs) / 2 ^ (s.reg rt).toNat ∧
      exec (.shr rd rs rt) s = .next { s with
        regs := s.regs.set rd.val r, pc := s.pc + 1#16, cycles := s.cycles + 1 }

/-! ## Loads and stores (spec/42_load_store.md) -/

/-- R141: `LOADI` writes the zero-extended 8-bit immediate, also 255, and touches neither memory nor console. -/
def Obligations.LoadiWritesTheZeroExtendedImmediate : Prop :=
  ∀ (rd : Reg) (addr : Addr) (s : State),
    decode (0x7#4 ++ nibble rd ++ addr) = .loadi rd addr ∧
    exec (.loadi rd addr) s = .next { s with
      regs := s.regs.set rd.val (BitVec.ofNat 16 addr.toNat), pc := s.pc + 1#16, cycles := s.cycles + 1 }

/-- R142, R36, R106: `LOAD` reads `mem[addr]`, and from 255 the console's next word into `x[rd]` only, moving the input
cursor by one; with no word there it waits and nothing changes. The split of `INPUT` into the queue and the host's words is
the model's (notes/assumptions/5.md). -/
def Obligations.LoadReadsMemoryOrTheConsole : Prop :=
  ∀ (rd : Reg) (addr : Addr) (s : State),
    decode (0x8#4 ++ nibble rd ++ addr) = .load rd addr ∧
    (addr ≠ 0xFF#8 → exec (.load rd addr) s = .next { s with
      regs := s.regs.set rd.val (s.mem.read addr.toNat), pc := s.pc + 1#16, cycles := s.cycles + 1 }) ∧
    (addr = 0xFF#8 → ∀ w, s.params.inQueue[s.inPos]? = some w → exec (.load rd addr) s = .next { s with
      regs := s.regs.set rd.val w, inPos := s.inPos + 1, pc := s.pc + 1#16, cycles := s.cycles + 1 }) ∧
    (addr = 0xFF#8 → ∀ w ws, s.params.inQueue.length ≤ s.inPos → s.typed = w :: ws →
      exec (.load rd addr) s = .next { s with
        regs := s.regs.set rd.val w, inPos := s.inPos + 1, typed := ws, pc := s.pc + 1#16, cycles := s.cycles + 1 }) ∧
    (addr = 0xFF#8 → s.params.inQueue.length ≤ s.inPos → s.typed = [] → exec (.load rd addr) s = .next s)

/-- R36, R191: `InRead()` takes the words of the Input Queue in order, then those the host enters, each once, and moves
the cursor by one; it changes nothing else. The split of `INPUT` into the queue and the host's words is the model's
(notes/assumptions/5.md). -/
def Obligations.InReadTakesTheQueueThenTheHostsWords : Prop :=
  ∀ s : State,
    (∀ w, s.params.inQueue[s.inPos]? = some w → s.inRead = some (w, { s with inPos := s.inPos + 1 })) ∧
    (∀ w ws, s.params.inQueue.length ≤ s.inPos → s.typed = w :: ws →
      s.inRead = some (w, { s with inPos := s.inPos + 1, typed := ws })) ∧
    (s.inRead = none ↔ s.params.inQueue.length ≤ s.inPos ∧ s.typed = [])

/-- R143: `STORE` stores `x[rd]` at `addr` and nowhere else, and for 255 the word then goes to the console exactly once.
The premise is a part of the model's invariant (notes/assumptions/3.md); that the form is kept says
`MemoryReadsWhatWasWritten`. -/
def Obligations.StoreWritesMemoryAndPrintsAt255 : Prop :=
  ∀ (rd : Reg) (addr : Addr) (s : State), s.mem.wf = true →
    decode (0x9#4 ++ nibble rd ++ addr) = .store rd addr ∧
    ∃ m : Memory,
      exec (.store rd addr) s = .next { s with
        mem := m, outLog := if addr = 0xFF#8 then s.outLog ++ [s.reg rd] else s.outLog
        pc := s.pc + 1#16, cycles := s.cycles + 1 } ∧
      ∀ a : Nat, m.read a = if a = addr.toNat then s.reg rd else s.mem.read a

/-- R144: `LOADR` reads `mem[x[rt]]`, plain memory also at 255, or takes `IllegalAddress` above 255. -/
def Obligations.LoadrReadsThroughTheRegister : Prop :=
  ∀ (rd rt : Reg) (x : BitVec 4) (s : State),
    decode (0xA#4 ++ nibble rd ++ x ++ nibble rt) = .loadr rd rt ∧
    ((s.reg rt).toNat ≤ 255 → exec (.loadr rd rt) s = .next { s with
      regs := s.regs.set rd.val (s.mem.read (s.reg rt).toNat), pc := s.pc + 1#16, cycles := s.cycles + 1 }) ∧
    (255 < (s.reg rt).toNat → exec (.loadr rd rt) s = .next { s with
      pc := s.pc + 1#16, status := .faulted, cause := .illegalAddress, faultAddr := s.reg rt })

/-- R145: `STORER` stores `x[rd]` at `x[rt]` and nowhere else, prints nothing even at 255, or takes `IllegalAddress`
above 255. The premise is a part of the model's invariant (notes/assumptions/3.md); that the form is kept says
`MemoryReadsWhatWasWritten`. -/
def Obligations.StorerWritesThroughTheRegister : Prop :=
  ∀ (rd rt : Reg) (x : BitVec 4) (s : State), s.mem.wf = true →
    decode (0xB#4 ++ nibble rd ++ x ++ nibble rt) = .storer rd rt ∧
    ((s.reg rt).toNat ≤ 255 → ∃ m : Memory,
      exec (.storer rd rt) s = .next { s with mem := m, pc := s.pc + 1#16, cycles := s.cycles + 1 } ∧
      ∀ a : Nat, m.read a = if a = (s.reg rt).toNat then s.reg rd else s.mem.read a) ∧
    (255 < (s.reg rt).toNat → exec (.storer rd rt) s = .next { s with
      pc := s.pc + 1#16, status := .faulted, cause := .illegalAddress, faultAddr := s.reg rt })

/-- R50: a read gives the word last written at that address and every other word is untouched. The canonical form of
memory is the model's choice and not R50's (DESIGN CHOICE, notes/assumptions/3.md): a write keeps it, and so does every
instruction, `STORE` and `STORER` among them, where the image of the run has it. -/
def Obligations.MemoryReadsWhatWasWritten : Prop :=
  (∀ (s : State) (a b : Addr) (v : Word), s.mem.wf = true →
    (s.memWrite a v).mem.wf = true ∧
    (s.memWrite a v).memRead b = (if b = a then v else s.memRead b)) ∧
  ∀ (i : Instr) (s t : State), s.mem.wf = true → s.params.image.wf = true → exec i s = .next t → t.mem.wf = true

/-- Memories that read alike at every address 0..255 are the same list; the canonical form is the model's choice
(notes/assumptions/3.md). -/
def Obligations.MemoriesThatReadAlikeAreEqual : Prop :=
  ∀ m m' : Memory, m.wf = true → m'.wf = true → (∀ a, a < 256 → m.read a = m'.read a) → m = m'

/-! ## Control transfer (spec/43_control.md) -/

/-- R161, R162: `BEQZ` tests all 16 bits for zero, `BGTZ` for `0 < x[rd] < 32768`, the signed reading above zero; the
target is the zero-extended `addr`; nothing but `pc` and the cycle count changes, taken or not. -/
def Obligations.ConditionalBranchesTestTheRegister : Prop :=
  ∀ (rd : Reg) (addr : Addr) (s : State),
    decode (0xC#4 ++ nibble rd ++ addr) = .beqz rd addr ∧
    exec (.beqz rd addr) s = .next { s with
      pc := if (s.reg rd).toNat = 0 then BitVec.ofNat 16 addr.toNat else s.pc + 1#16, cycles := s.cycles + 1 } ∧
    decode (0xD#4 ++ nibble rd ++ addr) = .bgtz rd addr ∧
    exec (.bgtz rd addr) s = .next { s with
      pc := if 0 < (s.reg rd).toNat ∧ (s.reg rd).toNat < 32768 then BitVec.ofNat 16 addr.toNat else s.pc + 1#16
      cycles := s.cycles + 1 } ∧
    (0 < (s.reg rd).toNat ∧ (s.reg rd).toNat < 32768 ↔ 0 < signed (s.reg rd))

/-- R163: `JR` copies all 16 bits of the register into `pc`, unchecked, and completes; a value above 255 faults at the
next fetch. -/
def Obligations.JrCopiesTheWholeRegister : Prop :=
  ∀ (rd : Reg) (x : BitVec 8) (s : State),
    decode (0xE#4 ++ nibble rd ++ x) = .jr rd ∧
    exec (.jr rd) s = .next { s with pc := s.reg rd, cycles := s.cycles + 1 } ∧
    (255 < (s.reg rd).toNat → engineStep { s with pc := s.reg rd, cycles := s.cycles + 1 } = .next { s with
      pc := s.reg rd, cycles := s.cycles + 1, status := .faulted, cause := .illegalFetch, faultAddr := s.reg rd })

/-- R164: `JALR` links the address of the word after itself, 256 from address 255, and jumps to the zero-extended
`addr`. -/
def Obligations.JalrLinksAndJumps : Prop :=
  ∀ (rd : Reg) (addr : Addr) (s : State), s.pc.toNat ≤ 255 →
    decode (0xF#4 ++ nibble rd ++ addr) = .jalr rd addr ∧
    exec (.jalr rd addr) s = .next { s with
      regs := s.regs.set rd.val (BitVec.ofNat 16 (s.pc.toNat + 1)), pc := BitVec.ofNat 16 addr.toNat
      cycles := s.cycles + 1 } ∧
    (BitVec.ofNat 16 (s.pc.toNat + 1)).toNat = s.pc.toNat + 1

/-! ## HALT, the step and faults (spec/40_step_halt.md, spec/60_exceptions.md) -/

/-- R110: `HALT`, any of its 4096 words: the run is over with everything kept, or, under the debugger, a full machine
reset with `mode` `STOPPED` and `started` cleared; no cycle is counted. -/
def Obligations.HaltEndsTheRunOrResetsTheMachine : Prop :=
  ∀ (x : BitVec 12) (s : State),
    decode (0x0#4 ++ x) = .halt ∧
    (s.params.debugEn = false → exec .halt s = .next { s with pc := s.pc + 1#16, status := .halted }) ∧
    (s.params.debugEn = true → exec .halt s = .next { s with
      pc := 0x0010#16, regs := Vector.replicate 16 0x0000#16, cycles := 0, mem := s.params.image
      inPos := if s.params.resetRewindsInput then 0 else s.inPos, mode := .stopped, started := false })

/-- A step runs the decoded instruction (R100 to R103): with the debugger disabled the step of an active run is `exec` of
what the word at `pc` decodes to; under the debugger the same at item 4 of its loop, which then begins again, unless the
instruction is held for input. `exec` moves `pc` past the word itself. The field `phase` is the model's
(notes/assumptions/1.md). -/
def Obligations.StepRunsTheDecodedInstruction : Prop :=
  ∀ s : State, s.status = .active → s.pc.toNat ≤ 255 →
    (s.params.debugEn = false → step s = exec (decode (s.mem.read s.pc.toNat)) s) ∧
    (s.params.debugEn = true → s.phase = .execute →
      step s = if (decode (s.mem.read s.pc.toNat)).readsConsole && s.inRead.isNone then .next s
        else exec (decode (s.mem.read s.pc.toNat)) { s with phase := .check })

/-- R101, R182: the fetch reads `mem[pc]`, also at 255; with `pc > 255` nothing is fetched, `pc` is not incremented and
nothing changes but the fault record and the status. -/
def Obligations.FetchAbove255TakesIllegalFetch : Prop :=
  ∀ s : State,
    (s.pc.toNat ≤ 255 → s.fetch = some (s.mem.read s.pc.toNat)) ∧
    (255 < s.pc.toNat → s.fetch = none ∧
      engineStep s = .next { s with status := .faulted, cause := .illegalFetch, faultAddr := s.pc } ∧
      (s.status = .active → s.params.debugEn = false →
        step s = .next { s with status := .faulted, cause := .illegalFetch, faultAddr := s.pc }))

/-- R146: an indirect address is valid exactly when it is at most 255; an invalid one writes no register and no memory
word, keeps the incremented `pc`, counts no cycle and ends the run. -/
def Obligations.IndirectAddressIsValidUpTo255 : Prop :=
  ∀ (rd rt : Reg) (s : State), s.status = .active → ∀ i, i = Instr.loadr rd rt ∨ i = Instr.storer rd rt →
    ∃ t, exec i s = .next t ∧ t.pc = s.pc + 1#16 ∧
      (t.status = .active ↔ (s.reg rt).toNat ≤ 255) ∧
      (255 < (s.reg rt).toNat → t.regs = s.regs ∧ t.mem = s.mem ∧ t.cycles = s.cycles ∧ t.outLog = s.outLog ∧
        t.status = .faulted ∧ t.cause = .illegalAddress ∧ t.faultAddr = s.reg rt)

/-- R28, R29, R180, R183 (D18): the codes of the run status and of the two faults are distinct, and a run that has ended
reports 0, or the code of its fault, which is not 0. -/
def Obligations.ExitStatusTellsHowTheRunEnded : Prop :=
  (∀ a b : Status, a.code = b.code → a = b) ∧ (∀ a b : Cause, a.code = b.code → a = b) ∧
  (∀ s : State, s.Inv → (s.exitStatus = none ↔ s.status = .active) ∧
    (s.exitStatus = some 0 ↔ s.status = .halted ∨ s.status = .quit) ∧
    (s.exitStatus = some 1 ↔ s.status = .faulted ∧ s.cause = .illegalAddress) ∧
    (s.exitStatus = some 2 ↔ s.status = .faulted ∧ s.cause = .illegalFetch))

/-- R183: whichever fault a step of an active run takes, it writes the record and the status and nothing else but the
increment of `pc` that precedes an `IllegalAddress` (and the model's loop position, notes/assumptions/1.md); the two
faults are those of R180, each from its own cause. -/
def Obligations.FaultEntryWritesOnlyTheRecord : Prop :=
  ∀ s t : State, s.status = .active → step s = .next t → t.status = .faulted →
    s.executesNext ∧
    ((t.cause = .illegalFetch ∧ 255 < s.pc.toNat ∧ t = { s with
        phase := t.phase, status := .faulted, cause := .illegalFetch, faultAddr := s.pc }) ∨
     (t.cause = .illegalAddress ∧ ∃ rd rt, (s.instrAtPc = some (.loadr rd rt) ∨ s.instrAtPc = some (.storer rd rt)) ∧
        255 < (s.reg rt).toNat ∧ t = { s with
          phase := t.phase, pc := s.pc + 1#16, status := .faulted, cause := .illegalAddress, faultAddr := s.reg rt }))

/-- The machine never lacks a meaning: from every state a step answers a next state; there is no illegal instruction
(R86, R103) and no stop outside the spec's status register. -/
def Obligations.EveryStepAnswersANextState : Prop :=
  (∀ (i : Instr) (s : State), ∃ t, exec i s = .next t) ∧ ∀ s : State, ∃ t, step s = .next t

/-- R28, R105, R184: a run that has ended stays as it is, whatever the host does; and an active run ends only by `HALT`
with the debugger disabled, by a fault, or by `quit` at the prompt. That an ended run answers the same state is the
model's way to say that no step happens (notes/assumptions/2.md). -/
def Obligations.RunEndsOnlyByHaltFaultOrQuit : Prop :=
  (∀ (s : State) (c : Command) (w : Word), s.status ≠ .active →
    step s = .next s ∧ step (s.hostCommands c) = .next (s.hostCommands c) ∧
    step (s.hostTypes w) = .next (s.hostTypes w)) ∧
  ∀ s t : State, s.status = .active → step s = .next t → t.status ≠ .active →
    (t.status = .halted ∧ s.params.debugEn = false ∧ s.instrAtPc = some .halt) ∨
    (t.status = .quit ∧ s.asksHost ∧ s.commands.head? = some .quit) ∨
    (t.status = .faulted ∧ s.executesNext)

/-- R106: exactly one instruction can wait. With the debugger disabled a step of an active run leaves the state as it is
exactly when a `LOAD` from 255 finds no input word. -/
def Obligations.OnlyLoadFrom255CanWait : Prop :=
  ∀ s : State, s.status = .active → s.params.debugEn = false →
    (step s = .next s ↔ (∃ rd, s.instrAtPc = some (.load rd 0xFF#8)) ∧ s.inRead = none)

/-- R104, R106: one cycle for every instruction that is not `HALT` and completes, one that has waited too; none for `HALT`
(which resets the counter under the debugger), for one that faults, for a fetch that faults, and while one waits. That a
wait is a step of its own, which answers a next state, is the model's (notes/assumptions/2.md), as is where the input words
stand (notes/assumptions/5.md). -/
def Obligations.CyclesCountCompletedInstructions : Prop :=
  ∀ (i : Instr) (s t : State), s.status = .active → exec i s = .next t →
    (i = .halt → t.cycles = if s.params.debugEn then 0 else s.cycles) ∧
    (i ≠ .halt → t.status = .active → ¬(i.readsConsole = true ∧ s.inRead = none) → t.cycles = s.cycles + 1) ∧
    (i.readsConsole = true → s.inRead = none → t.cycles = s.cycles) ∧
    (t.status = .faulted → t.cycles = s.cycles) ∧
    ∀ u, 255 < s.pc.toNat → engineStep s = .next u → u.cycles = s.cycles

/-- R25: how each instruction leaves `pc`, for one fetched from `p` in 0..255 that is not waiting for input. -/
def Obligations.PcAfterEachInstruction : Prop :=
  ∀ (i : Instr) (s t : State), s.pc.toNat ≤ 255 → exec i s = .next t → ¬(i.readsConsole = true ∧ s.inRead = none) →
    t.pc.toNat = i.pcAfter s

/-! ## Frames -/

/-- R22, R20: an instruction writes at most its one destination register; every other register is unchanged. The one
exception is `HALT` under the debugger, which resets them all. -/
def Obligations.OnlyTheDestinationRegisterChanges : Prop :=
  ∀ (i : Instr) (s t : State) (r : Reg), exec i s = .next t → i.destReg ≠ some r →
    ¬(i = .halt ∧ s.params.debugEn = true) → t.reg r = s.reg r

/-- R51, R50: memory changes only at the address the instruction stores to, which then holds the register it stores;
every other word reads as before, all of them for an instruction that stores nothing. The one exception is `HALT` under
the debugger, which reloads the image. -/
def Obligations.OnlyTheStoredWordChanges : Prop :=
  ∀ (i : Instr) (s t : State), s.mem.wf = true → exec i s = .next t → ¬(i = .halt ∧ s.params.debugEn = true) →
    (∀ (a : Addr) (r : Reg), i.storesTo s = some (a, r) →
      t.memRead a = s.reg r ∧ ∀ b : Addr, b ≠ a → t.memRead b = s.memRead b) ∧
    (i.storesTo s = none → ∀ b : Addr, t.memRead b = s.memRead b)

/-- R30, R222, R59: no instruction touches a breakpoint slot, `bp_n`, `verbose`, a parameter of the run, what the host
will do or what it was shown; only `HALT` writes `mode` or `started`; only `HALT` and an invalid indirect address write
the status, only the latter the fault record. -/
def Obligations.InstructionsLeaveControlStateAlone : Prop :=
  ∀ (i : Instr) (s t : State), exec i s = .next t →
    t.bp = s.bp ∧ t.bpN = s.bpN ∧ t.verbose = s.verbose ∧ t.params = s.params ∧ t.phase = s.phase ∧
    t.commands = s.commands ∧ t.reports = s.reports ∧ t.freeCount = s.freeCount ∧
    (i ≠ .halt → t.mode = s.mode ∧ t.started = s.started) ∧
    (t.status = s.status ∨ (i = .halt ∧ s.params.debugEn = false) ∨ t.status = .faulted) ∧
    ((t.cause = s.cause ∧ t.faultAddr = s.faultAddr) ∨
      (t.status = .faulted ∧ ∃ rd rt, (i = .loadr rd rt ∨ i = .storer rd rt) ∧ 255 < (s.reg rt).toNat))

/-- R54 to R56, R193: the console is reached by `LOAD` and `STORE` with `addr = 255` only: no other instruction takes an
input word or prints one (`HALT` under the debugger may put the cursor back). -/
def Obligations.ConsoleIsReachedOnlyThroughAddress255 : Prop :=
  ∀ (i : Instr) (s t : State), s.mem.wf = true → exec i s = .next t →
    (t.outLog = s.outLog ∨ ∃ rd, i = .store rd 0xFF#8 ∧ t.outLog = s.outLog ++ [s.reg rd]) ∧
    (∀ rd, i = .store rd 0xFF#8 → t.outLog = s.outLog ++ [s.reg rd]) ∧
    (i.readsConsole = false → t.typed = s.typed ∧
      (t.inPos = s.inPos ∨ (i = .halt ∧ s.params.debugEn = true ∧ s.params.resetRewindsInput = true ∧ t.inPos = 0)))

/-- R37, R193: nothing clears `out_log` within a run: each step leaves it or appends the one word that a `STORE` to 255
stores. -/
def Obligations.OutputLogOnlyGrows : Prop :=
  ∀ s t : State, s.mem.wf = true → step s = .next t →
    t.outLog = s.outLog ∨
    (s.executesNext ∧ ∃ rd, s.instrAtPc = some (.store rd 0xFF#8) ∧ t.outLog = s.outLog ++ [s.reg rd])

/-- R27: `cycles` is monotonic between resets: a step leaves it, adds one, or puts it to 0 by a machine reset, which only
`HALT` under the debugger and `run` of a started program make. -/
def Obligations.CyclesGrowBetweenResets : Prop :=
  ∀ s t : State, step s = .next t →
    t.cycles = s.cycles ∨ t.cycles = s.cycles + 1 ∨
    (t.cycles = 0 ∧ s.params.debugEn = true ∧
      ((s.executesNext ∧ s.instrAtPc = some .halt) ∨
       (s.asksHost ∧ s.started = true ∧ s.commands.head? = some (.run true))))

/-- R27, R39: `cycles` is purely observational: a run from a state that differs only in it differs only in it. -/
def Obligations.CyclesCannotBeObserved : Prop :=
  ∀ (s t : State) (n : Nat), step s = .next t →
    ∃ t', step { s with cycles := n } = .next t' ∧ { t' with cycles := 0 } = { t with cycles := 0 }

/-- R200: the debugger never changes what an instruction does, `HALT` apart: with any debugger state, present or not,
every other instruction has the same effect on the machine and leaves the debugger's state alone. -/
def Obligations.DebuggerDoesNotChangeInstructions : Prop :=
  ∀ (i : Instr) (s t : State) (en : Bool) (m : Mode) (b : Vector (Option Addr) 16) (n : Nat) (v st : Bool) (p : Phase),
    i ≠ .halt → exec i s = .next t →
    exec i { s with params := { s.params with debugEn := en }, mode := m, bp := b, bpN := n, verbose := v, started := st
                    phase := p } =
      .next { t with params := { s.params with debugEn := en }, mode := m, bp := b, bpN := n, verbose := v, started := st
                     phase := p }

/-- R66: a store is seen by the very next fetch: after a `STORE` of any register over the following word, the next step
executes the instruction which that register's word is. -/
def Obligations.StoreIsSeenByTheNextFetch : Prop :=
  ∀ (rd : Reg) (addr : Addr) (s : State), s.mem.wf = true → s.status = .active → s.params.debugEn = false →
    s.instrAtPc = some (.store rd addr) → addr.toNat = s.pc.toNat + 1 →
    ∃ t, step s = .next t ∧ t.pc.toNat = addr.toNat ∧ step t = exec (decode (s.reg rd)) t

/-! ## Reset (spec/70_reset_and_hazards.md) -/

/-- R241: a machine reset sets `pc`, the registers, `cycles`, memory and, if the parameter says so, the input cursor, and
nothing else. -/
def Obligations.MachineResetRestoresTheMachineState : Prop :=
  ∀ s : State,
    (∀ r, s.machineReset.reg r = 0x0000#16) ∧ (∀ a, s.machineReset.memRead a = s.params.image.read a.toNat) ∧
    s.machineReset = { s with
      pc := 0x0010#16, cycles := 0, regs := s.machineReset.regs, mem := s.machineReset.mem
      inPos := if s.params.resetRewindsInput then 0 else s.inPos }

/-- R242: a full reset from whatever state. The position in the loop and the log of reports are the model's
(notes/assumptions/1.md, notes/assumptions/7.md), as is the state of a debugger that is not present (R31). -/
def Obligations.FullResetStartsARun : Prop :=
  ∀ s : State,
    (∀ r, s.fullReset.reg r = 0x0000#16) ∧ (∀ a, s.fullReset.memRead a = s.params.image.read a.toNat) ∧
    s.fullReset.pc.toNat = 16 ∧ s.fullReset.cycles = 0 ∧ s.fullReset.status = .active ∧ s.fullReset.cause = .none ∧
    s.fullReset.faultAddr = 0x0000#16 ∧ s.fullReset.inPos = 0 ∧ s.fullReset.outLog = [] ∧
    s.fullReset.mode = (if s.params.debugEn then .stopped else .running) ∧ s.fullReset.started = false ∧
    s.fullReset.verbose = false ∧ (∀ i (h : i < 16), s.fullReset.bp[i] = none) ∧ s.fullReset.bpN = 0 ∧
    s.fullReset.params = s.params

/-- `State.reset` is the full reset with the model's default parameters (notes/assumptions/4.md): whatever state the
machine was in, starting a run with them gives it, but for what the host still has to give. -/
def Obligations.ResetIsAFullReset : Prop :=
  ∀ s : State, State.startRun Params.default { s with typed := [], commands := [], freeCount := 0 } = State.reset

/-! ## The debugger unit (spec/60_exceptions.md section 8)

The loop position `phase`, the pending `commands` and the log of `reports` are the model's own fields
(notes/assumptions/1.md, 6.md, 7.md); every statement here that names one of them is 'derived'. -/

/-- R203, R202 items 1 and 2: at the top of the loop a slot that is not `EMPTY` and holds `pc` forces `STEP` and is
announced with the least such slot's number; with no such slot the mode stays; an `EMPTY` slot never matches, `pc = 256`
included. No machine state changes, the breakpoint stays, and the loop goes on to the prompt unless `RUNNING`. -/
def Obligations.BreakpointCheckForcesStepMode : Prop :=
  ∀ s : State, s.status = .active → s.params.debugEn = true → s.phase = .check →
    ∃ t, step s = .next t ∧
      (∀ i (h : i < 16) (a : Addr), s.bp[i] = some a → a.toNat = s.pc.toNat →
        (∀ j (h' : j < 16) (b : Addr), j < i → s.bp[j] = some b → b.toNat ≠ s.pc.toNat) →
        t.mode = .step ∧ t.phase = .prompt ∧ (s.reports ++ [Report.breakHit (i + 1) s.pc]) <+: t.reports) ∧
      ((∀ i (h : i < 16) (a : Addr), s.bp[i] = some a → a.toNat ≠ s.pc.toNat) →
        t.mode = s.mode ∧ t.phase = (if s.mode = .running then .execute else .prompt)) ∧
      t = { s with mode := t.mode, phase := t.phase, reports := t.reports, freeCount := t.freeCount }

/-- R204: the trace `(pc, mem[pc])` is announced when `verbose` is set or the mode is `STEP`, and only then; above 255
its word is a free value (notes/assumptions/8.md). -/
def Obligations.TraceIsShownWhenVerboseOrStepping : Prop :=
  ∀ s t : State, s.status = .active → s.params.debugEn = true → s.phase = .check → step s = .next t →
    (s.verbose = true ∨ t.mode = .step → ∃ w, t.reports.getLast? = some (.trace s.pc w) ∧
      (s.pc.toNat ≤ 255 → w = s.mem.read s.pc.toNat)) ∧
    (s.verbose = false ∧ t.mode ≠ .step → t.reports = s.reports)

/-- R206: `run` starts the program; of a started one it asks, and only on a yes resets the machine first; the instruction
comes next at once. -/
def Obligations.RunStartsOrRestartsTheProgram : Prop :=
  ∀ (s : State) (confirm : Bool),
    (s.started = true → confirm = false → interpret (.run confirm) s = s) ∧
    (s.started = true → confirm = true → interpret (.run confirm) s =
      { s.machineReset with started := true, mode := .running, phase := .execute }) ∧
    (s.started = false → interpret (.run confirm) s = { s with started := true, mode := .running, phase := .execute })

/-- R207 to R209: `step` and `continue` start or resume the program whatever `started` is; `next` is `step` but for the
confirmation it needs when the program has not started. -/
def Obligations.StepContinueAndNextResume : Prop :=
  ∀ (s : State) (confirm : Bool),
    interpret .step s = { s with mode := .step, started := true, phase := .execute } ∧
    interpret .cont s = { s with mode := .running, started := true, phase := .execute } ∧
    (s.started = false → confirm = false → interpret (.next confirm) s = s) ∧
    (s.started = true ∨ confirm = true →
      interpret (.next confirm) s = { s with mode := .step, started := true, phase := .execute })

/-- R210: `break` hands out the slots in order while `bp_n < 16`, then reuses the lowest `EMPTY` one, and reports a full
table or an address outside 0..255 with no other change; a duplicate is inserted like any other address. -/
def Obligations.BreakFillsSlotsInOrderThenReuses : Prop :=
  ∀ (s : State) (a : Nat),
    (255 < a → interpret (.brk (some a)) s = { s with reports := s.reports ++ [.badArgument] }) ∧
    interpret (.brk none) s = { s with reports := s.reports ++ [.badArgument] } ∧
    (∀ h : s.bpN < 16, a ≤ 255 → interpret (.brk (some a)) s =
      { s with bp := s.bp.set s.bpN (some (BitVec.ofNat 8 a)), bpN := s.bpN + 1 }) ∧
    (∀ i (h : i < 16), 16 ≤ s.bpN → a ≤ 255 → s.bp[i] = none → (∀ j (h' : j < 16), j < i → s.bp[j] ≠ none) →
      interpret (.brk (some a)) s = { s with bp := s.bp.set i (some (BitVec.ofNat 8 a)) }) ∧
    (16 ≤ s.bpN → a ≤ 255 → (∀ i (h : i < 16), s.bp[i] ≠ none) →
      interpret (.brk (some a)) s = { s with reports := s.reports ++ [.breakpointTableFull] })

/-- R211: `delete` empties slot `n` of 1..16 and keeps `bp_n`; any other `n` is reported and changes nothing; deleting an
`EMPTY` slot leaves the table as it was, reported or not (a free value, notes/assumptions/8.md). -/
def Obligations.DeleteEmptiesTheSlot : Prop :=
  ∀ (s : State) (n : Nat),
    (n < 1 ∨ 16 < n → interpret (.delete (some n)) s =
      { s with reports := s.reports ++ [.invalidBreakpointReference] }) ∧
    (∀ i (h : i < 16), n = i + 1 → ∃ t, interpret (.delete (some n)) s = t ∧
      t.bp = s.bp.set i none ∧ t = { s with bp := t.bp, reports := t.reports, freeCount := t.freeCount } ∧
      (s.bp[i] ≠ none → t.reports = s.reports) ∧
      (s.bp[i] = none → t.bp = s.bp ∧
        (t.reports = s.reports ∨ t.reports = s.reports ++ [.invalidBreakpointReference])))

/-- R213, R217: `verbose` sets the flag, `noverbose` clears it, whatever it was; `quit` ends the run and keeps all other
state. -/
def Obligations.VerboseNoverboseAndQuit : Prop :=
  ∀ s : State,
    interpret .verbose s = { s with verbose := true } ∧ interpret .noVerbose s = { s with verbose := false } ∧
    interpret .quit s = { s with status := .quit }

/-- R212, R214 to R216, R218: `info`, `list`, `reg`, `help`, an unrecognised command and any command with a bad argument
change no state: nothing but what the host is shown. -/
def Obligations.InspectionAndBadCommandsChangeNothing : Prop :=
  ∀ (s : State) (c : Command),
    (c = .info ∨ (∃ arg, c = .list arg) ∨ c = .reg ∨ c = .help ∨ c = .unrecognized ∨ c.wellFormed = false) →
    interpret c s = { s with reports := (interpret c s).reports }

/-- R212, R214, R215: what the inspecting commands show: the active slots with their numbers from 1 in increasing order,
the words of an explicit range of addresses, the 16 registers. -/
def Obligations.InspectionShowsTheState : Prop :=
  ∀ s : State,
    (∃ l : List (Nat × Addr), interpret .info s = { s with reports := s.reports ++ [.breakpoints l] } ∧
      l.Pairwise (fun p q => p.1 < q.1) ∧
      ∀ (n : Nat) (a : Addr), (n, a) ∈ l ↔ ∃ i, ∃ h : i < 16, n = i + 1 ∧ s.bp[i] = some a) ∧
    (∀ a b, a ≤ b → b ≤ 255 → ∃ l : List (Nat × Word),
      interpret (.list (.range a b)) s = { s with reports := s.reports ++ [.memory l] } ∧
      l = (List.range (b + 1 - a)).map (fun k => (a + k, s.mem.read (a + k)))) ∧
    interpret .reg s = { s with reports := s.reports ++ [.registers s.regs] }

/-- R214: around an address of memory, given or in `pc`, `list` shows a run of at most `LIST_WINDOW` cells of memory that
holds the address; where the centred window lies in memory it is shown whole, with as many cells before the address as
after it when its size is odd, and one more or one fewer when it is even. Which of the two, and where the run begins at an
end of memory, are free values (notes/assumptions/8.md). That the run is of consecutive cells and cut at the ends, not
wrapped, is the model's choice (notes/assumptions/8.md); the log of reports is the model's (notes/assumptions/7.md). -/
def Obligations.ListShowsAWindowCentredOnTheAddress : Prop :=
  ∀ (s : State) (a : Nat), a ≤ 255 → ∃ lo len : Nat,
    interpret (.list (.around a)) s = { s with
      reports := s.reports ++ [.memory ((List.range len).map (fun k => (lo + k, s.mem.read (lo + k))))] } ∧
    (s.pc.toNat = a → interpret (.list .here) s = interpret (.list (.around a)) s) ∧
    lo + len ≤ 256 ∧ len ≤ s.params.listWindow ∧ (0 < s.params.listWindow → lo ≤ a ∧ a < lo + len) ∧
    (s.params.listWindow % 2 = 1 → s.params.listWindow / 2 ≤ a → a + s.params.listWindow / 2 ≤ 255 →
      len = s.params.listWindow ∧ lo + s.params.listWindow / 2 = a) ∧
    (s.params.listWindow % 2 = 0 → s.params.listWindow / 2 ≤ a → a + s.params.listWindow / 2 ≤ 255 →
      len = s.params.listWindow ∧ (lo + s.params.listWindow / 2 = a ∨ lo + s.params.listWindow / 2 = a + 1))

/-- R221: the controller takes a command only at the prompt and only while not `RUNNING`; then it takes exactly the next
one and interprets it; with none given nothing changes (R196 (a)). -/
def Obligations.CommandsAreTakenOnlyAtThePrompt : Prop :=
  (∀ s t : State, step s = .next t → t.commands ≠ s.commands → s.asksHost) ∧
  (∀ (s : State) (c : Command) (cs : List Command), s.asksHost → s.commands = c :: cs →
    step s = .next (interpret c { s with commands := cs })) ∧
  (∀ s : State, s.asksHost → s.commands = [] → step s = .next s)

/-- R222: through a command the host changes at most `mode`, `started`, `verbose`, the slots, `bp_n`, the status by
`quit`, and by `run` with a reset the machine state as a whole to its reset values (then also the input cursor, if the
parameter says so); never one register, one memory word or `pc`. -/
def Obligations.HostChangesTheMachineOnlyByReset : Prop :=
  ∀ (c : Command) (s t : State), interpret c s = t →
    t.params = s.params ∧ t.outLog = s.outLog ∧ t.typed = s.typed ∧ t.cause = s.cause ∧ t.faultAddr = s.faultAddr ∧
    (t.status = s.status ∨ c = .quit) ∧
    ((t.regs = s.regs ∧ t.mem = s.mem ∧ t.pc = s.pc ∧ t.cycles = s.cycles ∧ t.inPos = s.inPos) ∨
     (c = .run true ∧ s.started = true ∧ t.MachineIsReset ∧
       t.inPos = if s.params.resetRewindsInput then 0 else s.inPos))

/-- R201: the transitions of `mode`: to `STEP` by a breakpoint match at an instruction boundary or by `step` or `next`, to
`RUNNING` by `run` or `continue`, to `STOPPED` by `HALT`; nothing else changes it. -/
def Obligations.ModeChangesOnlyAsTheTableSays : Prop :=
  ∀ s t : State, step s = .next t → t.mode ≠ s.mode → s.params.debugEn = true ∧
    ((t.mode = .step ∧ s.phase = .check ∧ ∃ i, ∃ h : i < 16, ∃ a, s.bp[i] = some a ∧ a.toNat = s.pc.toNat) ∨
     (t.mode = .step ∧ s.asksHost ∧ (s.commands.head? = some .step ∨ ∃ y, s.commands.head? = some (.next y))) ∨
     (t.mode = .running ∧ s.asksHost ∧ (s.commands.head? = some .cont ∨ ∃ y, s.commands.head? = some (.run y))) ∨
     (t.mode = .stopped ∧ s.executesNext ∧ s.instrAtPc = some .halt))

/-- R223, R200: under the debugger, `RUNNING` with no slot that matches and `verbose` off, the loop's check and the
instruction together do exactly what the one step of the undebugged machine does, for every instruction but `HALT`,
waits and faults included. The field `phase` is the model's (notes/assumptions/1.md). -/
def Obligations.RunningUnderTheDebuggerIsFreeRun : Prop :=
  ∀ s : State, s.status = .active → s.params.debugEn = true → s.phase = .check → s.mode = .running →
    s.verbose = false → (∀ i (h : i < 16) (a : Addr), s.bp[i] = some a → a.toNat ≠ s.pc.toNat) →
    s.instrAtPc ≠ some .halt →
    ∃ s1 t u, step s = .next s1 ∧ step s1 = .next t ∧
      step { s with params := { s.params with debugEn := false } } = .next u ∧
      u = { t with params := { s.params with debugEn := false }, phase := .check } ∧
      (t.phase = .check ∨ (t = s1 ∧ u = { s with params := { s.params with debugEn := false } }))

/-! ## The invariant -/

/-- Every step keeps the invariant, from every state that meets it, not only from reset. Its clauses on the breakpoint
table's order, on the fault record in step with the status, on who ends a run, and that a program not yet started leaves the
machine in its reset state, rest on rules (R29, R33, R110, R180, R206, R217). The others are the model's own (DESIGN
CHOICE): the canonical form of memory and image (notes/assumptions/3.md), the position in the loop
(notes/assumptions/1.md), and the values at which the fields of an absent debugger stand (notes/assumptions/10.md). -/
def Obligations.EveryStepKeepsTheInvariant : Prop := ∀ s t : State, s.Inv → step s = .next t → t.Inv

/-- The invariant holds at `State.reset`, and after the full reset that starts any run with an image in canonical form. The
parameters of `State.reset` are the model's choice (notes/assumptions/4.md), and so are the invariant's clauses on the
canonical form (notes/assumptions/3.md), on the position in the loop (notes/assumptions/1.md) and on the absent debugger
(notes/assumptions/10.md). -/
def Obligations.ResetMeetsTheInvariant : Prop :=
  State.reset.Inv ∧ ∀ (p : Params) (s : State), p.image.wf = true → (State.startRun p s).Inv
end

