-- ==== Sys2Proof/Laws/Alu.lean ====
section
/-! SUPPORT. The arithmetic shift right of spec/41_alu.md R126 and the arithmetic shift of bit vectors agree. -/

namespace Sys2Proof.Machine

/-- The signed reading of R10 is the two's-complement reading of the bit vector. -/
theorem signed_eq_toInt (v : Word) : signed v = v.toInt := by
  rw [signed, BitVec.toInt_eq_toNat_cond]
  split <;> split <;> first | rfl | omega

theorem isNegative_eq_msb (v : Word) : isNegative v = v.msb := by
  rw [BitVec.msb_eq_decide, isNegative]
  congr 1

/-- The mask of R126: the top `n` bits. -/
theorem shrMask_getLsbD {n : Word} (hn : n.toNat ≤ 15) (i : Nat) (hi : i < 16) :
    (shrMask n).getLsbD i = decide (16 - n.toNat ≤ i) := by
  have h : 65535 * 2 ^ (16 - n.toNat) = (2 ^ 16 - 1) <<< (16 - n.toNat) := by
    rw [Nat.shiftLeft_eq]; rfl
  rw [shrMask, if_pos hn, BitVec.getLsbD_ofNat, h, Nat.testBit_shiftLeft, Nat.testBit_two_pow_sub_one]
  have h1 : i - (16 - n.toNat) < 16 := by omega
  simp [hi, h1]

/-- The pseudocode of R126 is the arithmetic shift of the bit vector, for every amount. -/
theorem shiftRightArith_eq_sshiftRight (v n : Word) : shiftRightArith v n = v.sshiftRight n.toNat := by
  apply BitVec.eq_of_getLsbD_eq
  intro i hi
  rw [BitVec.getLsbD_sshiftRight, shiftRightArith, isNegative_eq_msb]
  by_cases hn : n.toNat ≤ 15
  · have htmp : (shrTmp v n).getLsbD i = v.getLsbD (n.toNat + i) := by
      rw [shrTmp, if_pos hn, BitVec.getLsbD_ushiftRight]
    have hge : ¬ n.toNat + i < 16 → v.getLsbD (n.toNat + i) = false := fun h => BitVec.getLsbD_of_ge _ _ (by omega)
    have hi' : decide (16 ≤ i) = false := by simpa using hi
    rw [hi', Bool.not_false, Bool.true_and]
    cases hv : v.msb
    · rw [if_neg (by simp), htmp]
      split
      · rfl
      · exact hge ‹_›
    · rw [if_pos rfl, BitVec.getLsbD_or, htmp, shrMask_getLsbD hn i hi]
      split
      · have : ¬ 16 - n.toNat ≤ i := by omega
        simp [this]
      · have : 16 - n.toNat ≤ i := by omega
        simp [this]
  · have hmask : shrMask n = BitVec.allOnes 16 := by rw [shrMask, if_neg hn]; rfl
    have htmp : shrTmp v n = 0#16 := by rw [shrTmp, if_neg hn]
    have hlt : ¬ n.toNat + i < 16 := by omega
    cases hv : v.msb
    · rw [if_neg (by simp), htmp, if_neg hlt]; simp
    · rw [if_pos rfl, htmp, hmask, if_neg hlt, BitVec.zero_or, BitVec.getLsbD_allOnes]
      simp [hi]

end Sys2Proof.Machine
end

