-- ==== Sys2Proof/Laws/Decode.lean ====
section
/-! SUPPORT. The fields of the words the two formats build, and the map from opcodes to instructions. -/

namespace Sys2Proof

theorem field_toNat (w : Word) (i : Nat) : (field w i).toNat = w.toNat / 16 ^ i % 16 := by
  simp [field, BitVec.extractLsb'_toNat, Nat.shiftRight_eq_div_pow, Nat.pow_mul]

theorem format1_toNat (op rd rs rt : BitVec 4) :
    (format1 op rd rs rt).toNat = 4096 * op.toNat + 256 * rd.toNat + 16 * rs.toNat + rt.toNat := by
  have h1 := rt.isLt; have h2 := rs.isLt; have h3 := rd.isLt
  simp only [format1, BitVec.toNat_append]
  rw [Nat.shiftLeft_eq, Nat.shiftLeft_eq, Nat.shiftLeft_eq, Nat.mul_comm _ (2 ^ 4), Nat.mul_comm _ (2 ^ 4),
    Nat.mul_comm _ (2 ^ 4), ← Nat.two_pow_add_eq_or_of_lt h3, ← Nat.two_pow_add_eq_or_of_lt h2,
    ← Nat.two_pow_add_eq_or_of_lt h1]
  omega

theorem format2_toNat (op rd : BitVec 4) (addr : Addr) :
    (format2 op rd addr).toNat = 4096 * op.toNat + 256 * rd.toNat + addr.toNat := by
  have h1 := addr.isLt; have h3 := rd.isLt
  simp only [format2, BitVec.toNat_append]
  rw [Nat.shiftLeft_eq, Nat.shiftLeft_eq, Nat.mul_comm _ (2 ^ 8), Nat.mul_comm _ (2 ^ 4),
    ← Nat.two_pow_add_eq_or_of_lt h3, ← Nat.two_pow_add_eq_or_of_lt h1]
  omega

section format1
variable (op rd rs rt : BitVec 4)

@[simp] theorem field_format1_op : field (format1 op rd rs rt) 3 = op := by
  apply BitVec.eq_of_toNat_eq; rw [field_toNat, format1_toNat]; omega
@[simp] theorem field_format1_rd : field (format1 op rd rs rt) 2 = rd := by
  apply BitVec.eq_of_toNat_eq; rw [field_toNat, format1_toNat]; omega
@[simp] theorem field_format1_rs : field (format1 op rd rs rt) 1 = rs := by
  apply BitVec.eq_of_toNat_eq; rw [field_toNat, format1_toNat]; omega
@[simp] theorem field_format1_rt : field (format1 op rd rs rt) 0 = rt := by
  apply BitVec.eq_of_toNat_eq; rw [field_toNat, format1_toNat]; omega

end format1

section format2
variable (op rd : BitVec 4) (addr : Addr)

@[simp] theorem field_format2_op : field (format2 op rd addr) 3 = op := by
  apply BitVec.eq_of_toNat_eq; rw [field_toNat, format2_toNat]; omega
@[simp] theorem field_format2_rd : field (format2 op rd addr) 2 = rd := by
  apply BitVec.eq_of_toNat_eq; rw [field_toNat, format2_toNat]; omega
@[simp] theorem addrField_format2 : addrField (format2 op rd addr) = addr := by
  apply BitVec.eq_of_toNat_eq
  rw [addrField, BitVec.extractLsb'_toNat, format2_toNat]
  simp only [Nat.shiftRight_zero]
  omega

end format2

@[simp] theorem nibble_toFin (r : Reg) : (nibble r).toFin = r := rfl

/-- The row of the opcode map that a word selects. -/
theorem decode_of_opcode {w : Word} {op : BitVec 4} (h : field w 3 = op) : decode w = opcodeMap.get op.toFin w := by
  rw [decode, regField, h]

theorem decode_format1 (op rd rs rt : BitVec 4) :
    decode (format1 op rd rs rt) = opcodeMap.get op.toFin (format1 op rd rs rt) :=
  decode_of_opcode (field_format1_op ..)

theorem decode_format2 (op rd : BitVec 4) (addr : Addr) :
    decode (format2 op rd addr) = opcodeMap.get op.toFin (format2 op rd addr) :=
  decode_of_opcode (field_format2_op ..)

/-- A word is its four nibbles. -/
theorem format1_fields (w : Word) : format1 (field w 3) (field w 2) (field w 1) (field w 0) = w := by
  apply BitVec.eq_of_toNat_eq
  rw [format1_toNat, field_toNat, field_toNat, field_toNat, field_toNat]
  have := w.isLt
  omega

/-- A word is its two upper nibbles and its lower byte. -/
theorem format2_fields (w : Word) : format2 (field w 3) (field w 2) (addrField w) = w := by
  apply BitVec.eq_of_toNat_eq
  rw [format2_toNat, field_toNat, field_toNat, addrField, BitVec.extractLsb'_toNat, Nat.shiftRight_zero]
  have := w.isLt
  omega

section rows
variable {op : BitVec 4} {rd rs rt : Reg} {addr : Addr}

/-- A row of the opcode map that reads three register fields, on the word built from them. -/
theorem decode_readRegs {f : Reg → Reg → Reg → Instr} (h : opcodeMap.get op.toFin = readRegs f) :
    decode (format1 op (nibble rd) (nibble rs) (nibble rt)) = f rd rs rt := by
  rw [decode_format1, h]
  simp [readRegs, regField]

/-- A row that ignores `rs`, whatever that field holds. -/
theorem decode_readRdRt {f : Reg → Reg → Instr} {x : BitVec 4} (h : opcodeMap.get op.toFin = readRdRt f) :
    decode (format1 op (nibble rd) x (nibble rt)) = f rd rt := by
  rw [decode_format1, h]
  simp [readRdRt, regField]

/-- A row of Format 2, on the word built from its fields. -/
theorem decode_readRdAddr {f : Reg → Addr → Instr} (h : opcodeMap.get op.toFin = readRdAddr f) :
    decode (format2 op (nibble rd) addr) = f rd addr := by
  rw [decode_format2, h]
  simp [readRdAddr, regField]

/-- `JR` reads `rd` and ignores the rest of its word. -/
theorem decode_jr (x y : BitVec 4) : decode (format1 0xE#4 (nibble rd) x y) = .jr rd := by
  rw [decode_format1]
  show Instr.jr (regField _ 2) = _
  simp [regField]

/-- `HALT` is selected by its opcode alone. -/
theorem decode_halt (x y z : BitVec 4) : decode (format1 0x0#4 x y z) = .halt := by
  rw [decode_format1]
  rfl

end rows

end Sys2Proof
end

