-- ==== Sys2Proof/Laws/State.lean ====
section
/-! SUPPORT. One lemma per field per state update, so that no later proof unfolds a record update. -/

namespace Sys2Proof.Machine

section setReg
variable (s : State) (i : Reg) (v : Word)

@[simp] theorem State.setReg_regs : (s.setReg i v).regs = s.regs.set i.val v := rfl
@[simp] theorem State.setReg_pc : (s.setReg i v).pc = s.pc := rfl
@[simp] theorem State.setReg_mem : (s.setReg i v).mem = s.mem := rfl
@[simp] theorem State.setReg_cycles : (s.setReg i v).cycles = s.cycles := rfl
@[simp] theorem State.setReg_status : (s.setReg i v).status = s.status := rfl
@[simp] theorem State.setReg_cause : (s.setReg i v).cause = s.cause := rfl
@[simp] theorem State.setReg_faultAddr : (s.setReg i v).faultAddr = s.faultAddr := rfl
@[simp] theorem State.setReg_mode : (s.setReg i v).mode = s.mode := rfl
@[simp] theorem State.setReg_bp : (s.setReg i v).bp = s.bp := rfl
@[simp] theorem State.setReg_bpN : (s.setReg i v).bpN = s.bpN := rfl
@[simp] theorem State.setReg_verbose : (s.setReg i v).verbose = s.verbose := rfl
@[simp] theorem State.setReg_started : (s.setReg i v).started = s.started := rfl
@[simp] theorem State.setReg_inPos : (s.setReg i v).inPos = s.inPos := rfl
@[simp] theorem State.setReg_outLog : (s.setReg i v).outLog = s.outLog := rfl
@[simp] theorem State.setReg_params : (s.setReg i v).params = s.params := rfl
@[simp] theorem State.setReg_phase : (s.setReg i v).phase = s.phase := rfl
@[simp] theorem State.setReg_typed : (s.setReg i v).typed = s.typed := rfl
@[simp] theorem State.setReg_commands : (s.setReg i v).commands = s.commands := rfl
@[simp] theorem State.setReg_reports : (s.setReg i v).reports = s.reports := rfl
@[simp] theorem State.setReg_freeCount : (s.setReg i v).freeCount = s.freeCount := rfl

end setReg

section setPc
variable (s : State) (t : Word)

@[simp] theorem State.setPc_regs : (s.setPc t).regs = s.regs := rfl
@[simp] theorem State.setPc_pc : (s.setPc t).pc = t := rfl
@[simp] theorem State.setPc_mem : (s.setPc t).mem = s.mem := rfl
@[simp] theorem State.setPc_cycles : (s.setPc t).cycles = s.cycles := rfl
@[simp] theorem State.setPc_status : (s.setPc t).status = s.status := rfl
@[simp] theorem State.setPc_cause : (s.setPc t).cause = s.cause := rfl
@[simp] theorem State.setPc_faultAddr : (s.setPc t).faultAddr = s.faultAddr := rfl
@[simp] theorem State.setPc_mode : (s.setPc t).mode = s.mode := rfl
@[simp] theorem State.setPc_bp : (s.setPc t).bp = s.bp := rfl
@[simp] theorem State.setPc_bpN : (s.setPc t).bpN = s.bpN := rfl
@[simp] theorem State.setPc_verbose : (s.setPc t).verbose = s.verbose := rfl
@[simp] theorem State.setPc_started : (s.setPc t).started = s.started := rfl
@[simp] theorem State.setPc_inPos : (s.setPc t).inPos = s.inPos := rfl
@[simp] theorem State.setPc_outLog : (s.setPc t).outLog = s.outLog := rfl
@[simp] theorem State.setPc_params : (s.setPc t).params = s.params := rfl
@[simp] theorem State.setPc_phase : (s.setPc t).phase = s.phase := rfl
@[simp] theorem State.setPc_typed : (s.setPc t).typed = s.typed := rfl
@[simp] theorem State.setPc_commands : (s.setPc t).commands = s.commands := rfl
@[simp] theorem State.setPc_reports : (s.setPc t).reports = s.reports := rfl
@[simp] theorem State.setPc_freeCount : (s.setPc t).freeCount = s.freeCount := rfl

end setPc

section advance
variable (s : State)

@[simp] theorem State.advance_regs : (s.advance).regs = s.regs := rfl
@[simp] theorem State.advance_pc : (s.advance).pc = s.pc + 1#16 := rfl
@[simp] theorem State.advance_mem : (s.advance).mem = s.mem := rfl
@[simp] theorem State.advance_cycles : (s.advance).cycles = s.cycles := rfl
@[simp] theorem State.advance_status : (s.advance).status = s.status := rfl
@[simp] theorem State.advance_cause : (s.advance).cause = s.cause := rfl
@[simp] theorem State.advance_faultAddr : (s.advance).faultAddr = s.faultAddr := rfl
@[simp] theorem State.advance_mode : (s.advance).mode = s.mode := rfl
@[simp] theorem State.advance_bp : (s.advance).bp = s.bp := rfl
@[simp] theorem State.advance_bpN : (s.advance).bpN = s.bpN := rfl
@[simp] theorem State.advance_verbose : (s.advance).verbose = s.verbose := rfl
@[simp] theorem State.advance_started : (s.advance).started = s.started := rfl
@[simp] theorem State.advance_inPos : (s.advance).inPos = s.inPos := rfl
@[simp] theorem State.advance_outLog : (s.advance).outLog = s.outLog := rfl
@[simp] theorem State.advance_params : (s.advance).params = s.params := rfl
@[simp] theorem State.advance_phase : (s.advance).phase = s.phase := rfl
@[simp] theorem State.advance_typed : (s.advance).typed = s.typed := rfl
@[simp] theorem State.advance_commands : (s.advance).commands = s.commands := rfl
@[simp] theorem State.advance_reports : (s.advance).reports = s.reports := rfl
@[simp] theorem State.advance_freeCount : (s.advance).freeCount = s.freeCount := rfl

end advance

section retire
variable (s : State)

@[simp] theorem State.retire_regs : (s.retire).regs = s.regs := rfl
@[simp] theorem State.retire_pc : (s.retire).pc = s.pc := rfl
@[simp] theorem State.retire_mem : (s.retire).mem = s.mem := rfl
@[simp] theorem State.retire_cycles : (s.retire).cycles = s.cycles + 1 := rfl
@[simp] theorem State.retire_status : (s.retire).status = s.status := rfl
@[simp] theorem State.retire_cause : (s.retire).cause = s.cause := rfl
@[simp] theorem State.retire_faultAddr : (s.retire).faultAddr = s.faultAddr := rfl
@[simp] theorem State.retire_mode : (s.retire).mode = s.mode := rfl
@[simp] theorem State.retire_bp : (s.retire).bp = s.bp := rfl
@[simp] theorem State.retire_bpN : (s.retire).bpN = s.bpN := rfl
@[simp] theorem State.retire_verbose : (s.retire).verbose = s.verbose := rfl
@[simp] theorem State.retire_started : (s.retire).started = s.started := rfl
@[simp] theorem State.retire_inPos : (s.retire).inPos = s.inPos := rfl
@[simp] theorem State.retire_outLog : (s.retire).outLog = s.outLog := rfl
@[simp] theorem State.retire_params : (s.retire).params = s.params := rfl
@[simp] theorem State.retire_phase : (s.retire).phase = s.phase := rfl
@[simp] theorem State.retire_typed : (s.retire).typed = s.typed := rfl
@[simp] theorem State.retire_commands : (s.retire).commands = s.commands := rfl
@[simp] theorem State.retire_reports : (s.retire).reports = s.reports := rfl
@[simp] theorem State.retire_freeCount : (s.retire).freeCount = s.freeCount := rfl

end retire

section memWrite
variable (s : State) (a : Addr) (v : Word)

@[simp] theorem State.memWrite_regs : (s.memWrite a v).regs = s.regs := rfl
@[simp] theorem State.memWrite_pc : (s.memWrite a v).pc = s.pc := rfl
@[simp] theorem State.memWrite_mem : (s.memWrite a v).mem = s.mem.write a.toNat v := rfl
@[simp] theorem State.memWrite_cycles : (s.memWrite a v).cycles = s.cycles := rfl
@[simp] theorem State.memWrite_status : (s.memWrite a v).status = s.status := rfl
@[simp] theorem State.memWrite_cause : (s.memWrite a v).cause = s.cause := rfl
@[simp] theorem State.memWrite_faultAddr : (s.memWrite a v).faultAddr = s.faultAddr := rfl
@[simp] theorem State.memWrite_mode : (s.memWrite a v).mode = s.mode := rfl
@[simp] theorem State.memWrite_bp : (s.memWrite a v).bp = s.bp := rfl
@[simp] theorem State.memWrite_bpN : (s.memWrite a v).bpN = s.bpN := rfl
@[simp] theorem State.memWrite_verbose : (s.memWrite a v).verbose = s.verbose := rfl
@[simp] theorem State.memWrite_started : (s.memWrite a v).started = s.started := rfl
@[simp] theorem State.memWrite_inPos : (s.memWrite a v).inPos = s.inPos := rfl
@[simp] theorem State.memWrite_outLog : (s.memWrite a v).outLog = s.outLog := rfl
@[simp] theorem State.memWrite_params : (s.memWrite a v).params = s.params := rfl
@[simp] theorem State.memWrite_phase : (s.memWrite a v).phase = s.phase := rfl
@[simp] theorem State.memWrite_typed : (s.memWrite a v).typed = s.typed := rfl
@[simp] theorem State.memWrite_commands : (s.memWrite a v).commands = s.commands := rfl
@[simp] theorem State.memWrite_reports : (s.memWrite a v).reports = s.reports := rfl
@[simp] theorem State.memWrite_freeCount : (s.memWrite a v).freeCount = s.freeCount := rfl

end memWrite

section outWrite
variable (s : State) (v : Word)

@[simp] theorem State.outWrite_regs : (s.outWrite v).regs = s.regs := rfl
@[simp] theorem State.outWrite_pc : (s.outWrite v).pc = s.pc := rfl
@[simp] theorem State.outWrite_mem : (s.outWrite v).mem = s.mem := rfl
@[simp] theorem State.outWrite_cycles : (s.outWrite v).cycles = s.cycles := rfl
@[simp] theorem State.outWrite_status : (s.outWrite v).status = s.status := rfl
@[simp] theorem State.outWrite_cause : (s.outWrite v).cause = s.cause := rfl
@[simp] theorem State.outWrite_faultAddr : (s.outWrite v).faultAddr = s.faultAddr := rfl
@[simp] theorem State.outWrite_mode : (s.outWrite v).mode = s.mode := rfl
@[simp] theorem State.outWrite_bp : (s.outWrite v).bp = s.bp := rfl
@[simp] theorem State.outWrite_bpN : (s.outWrite v).bpN = s.bpN := rfl
@[simp] theorem State.outWrite_verbose : (s.outWrite v).verbose = s.verbose := rfl
@[simp] theorem State.outWrite_started : (s.outWrite v).started = s.started := rfl
@[simp] theorem State.outWrite_inPos : (s.outWrite v).inPos = s.inPos := rfl
@[simp] theorem State.outWrite_outLog : (s.outWrite v).outLog = s.outLog ++ [v] := rfl
@[simp] theorem State.outWrite_params : (s.outWrite v).params = s.params := rfl
@[simp] theorem State.outWrite_phase : (s.outWrite v).phase = s.phase := rfl
@[simp] theorem State.outWrite_typed : (s.outWrite v).typed = s.typed := rfl
@[simp] theorem State.outWrite_commands : (s.outWrite v).commands = s.commands := rfl
@[simp] theorem State.outWrite_reports : (s.outWrite v).reports = s.reports := rfl
@[simp] theorem State.outWrite_freeCount : (s.outWrite v).freeCount = s.freeCount := rfl

end outWrite

section raiseFault
variable (s : State) (c : Cause) (a : Word)

@[simp] theorem State.raiseFault_regs : (s.raiseFault c a).regs = s.regs := rfl
@[simp] theorem State.raiseFault_pc : (s.raiseFault c a).pc = s.pc := rfl
@[simp] theorem State.raiseFault_mem : (s.raiseFault c a).mem = s.mem := rfl
@[simp] theorem State.raiseFault_cycles : (s.raiseFault c a).cycles = s.cycles := rfl
@[simp] theorem State.raiseFault_status : (s.raiseFault c a).status = .faulted := rfl
@[simp] theorem State.raiseFault_cause : (s.raiseFault c a).cause = c := rfl
@[simp] theorem State.raiseFault_faultAddr : (s.raiseFault c a).faultAddr = a := rfl
@[simp] theorem State.raiseFault_mode : (s.raiseFault c a).mode = s.mode := rfl
@[simp] theorem State.raiseFault_bp : (s.raiseFault c a).bp = s.bp := rfl
@[simp] theorem State.raiseFault_bpN : (s.raiseFault c a).bpN = s.bpN := rfl
@[simp] theorem State.raiseFault_verbose : (s.raiseFault c a).verbose = s.verbose := rfl
@[simp] theorem State.raiseFault_started : (s.raiseFault c a).started = s.started := rfl
@[simp] theorem State.raiseFault_inPos : (s.raiseFault c a).inPos = s.inPos := rfl
@[simp] theorem State.raiseFault_outLog : (s.raiseFault c a).outLog = s.outLog := rfl
@[simp] theorem State.raiseFault_params : (s.raiseFault c a).params = s.params := rfl
@[simp] theorem State.raiseFault_phase : (s.raiseFault c a).phase = s.phase := rfl
@[simp] theorem State.raiseFault_typed : (s.raiseFault c a).typed = s.typed := rfl
@[simp] theorem State.raiseFault_commands : (s.raiseFault c a).commands = s.commands := rfl
@[simp] theorem State.raiseFault_reports : (s.raiseFault c a).reports = s.reports := rfl
@[simp] theorem State.raiseFault_freeCount : (s.raiseFault c a).freeCount = s.freeCount := rfl

end raiseFault

section machineReset
variable (s : State)

@[simp] theorem State.machineReset_regs : (s.machineReset).regs = Vector.replicate 16 0x0000#16 := rfl
@[simp] theorem State.machineReset_pc : (s.machineReset).pc = Config.entry := rfl
@[simp] theorem State.machineReset_mem : (s.machineReset).mem = s.params.image := rfl
@[simp] theorem State.machineReset_cycles : (s.machineReset).cycles = 0 := rfl
@[simp] theorem State.machineReset_status : (s.machineReset).status = s.status := rfl
@[simp] theorem State.machineReset_cause : (s.machineReset).cause = s.cause := rfl
@[simp] theorem State.machineReset_faultAddr : (s.machineReset).faultAddr = s.faultAddr := rfl
@[simp] theorem State.machineReset_mode : (s.machineReset).mode = s.mode := rfl
@[simp] theorem State.machineReset_bp : (s.machineReset).bp = s.bp := rfl
@[simp] theorem State.machineReset_bpN : (s.machineReset).bpN = s.bpN := rfl
@[simp] theorem State.machineReset_verbose : (s.machineReset).verbose = s.verbose := rfl
@[simp] theorem State.machineReset_started : (s.machineReset).started = s.started := rfl
@[simp] theorem State.machineReset_inPos : (s.machineReset).inPos = if s.params.resetRewindsInput then 0 else s.inPos := rfl
@[simp] theorem State.machineReset_outLog : (s.machineReset).outLog = s.outLog := rfl
@[simp] theorem State.machineReset_params : (s.machineReset).params = s.params := rfl
@[simp] theorem State.machineReset_phase : (s.machineReset).phase = s.phase := rfl
@[simp] theorem State.machineReset_typed : (s.machineReset).typed = s.typed := rfl
@[simp] theorem State.machineReset_commands : (s.machineReset).commands = s.commands := rfl
@[simp] theorem State.machineReset_reports : (s.machineReset).reports = s.reports := rfl
@[simp] theorem State.machineReset_freeCount : (s.machineReset).freeCount = s.freeCount := rfl

end machineReset

section haltUnderDebugger
variable (s : State)

@[simp] theorem State.haltUnderDebugger_regs : (s.haltUnderDebugger).regs = Vector.replicate 16 0x0000#16 := rfl
@[simp] theorem State.haltUnderDebugger_pc : (s.haltUnderDebugger).pc = Config.entry := rfl
@[simp] theorem State.haltUnderDebugger_mem : (s.haltUnderDebugger).mem = s.params.image := rfl
@[simp] theorem State.haltUnderDebugger_cycles : (s.haltUnderDebugger).cycles = 0 := rfl
@[simp] theorem State.haltUnderDebugger_status : (s.haltUnderDebugger).status = s.status := rfl
@[simp] theorem State.haltUnderDebugger_cause : (s.haltUnderDebugger).cause = s.cause := rfl
@[simp] theorem State.haltUnderDebugger_faultAddr : (s.haltUnderDebugger).faultAddr = s.faultAddr := rfl
@[simp] theorem State.haltUnderDebugger_mode : (s.haltUnderDebugger).mode = .stopped := rfl
@[simp] theorem State.haltUnderDebugger_bp : (s.haltUnderDebugger).bp = s.bp := rfl
@[simp] theorem State.haltUnderDebugger_bpN : (s.haltUnderDebugger).bpN = s.bpN := rfl
@[simp] theorem State.haltUnderDebugger_verbose : (s.haltUnderDebugger).verbose = s.verbose := rfl
@[simp] theorem State.haltUnderDebugger_started : (s.haltUnderDebugger).started = false := rfl
@[simp] theorem State.haltUnderDebugger_inPos : (s.haltUnderDebugger).inPos = if s.params.resetRewindsInput then 0 else s.inPos := rfl
@[simp] theorem State.haltUnderDebugger_outLog : (s.haltUnderDebugger).outLog = s.outLog := rfl
@[simp] theorem State.haltUnderDebugger_params : (s.haltUnderDebugger).params = s.params := rfl
@[simp] theorem State.haltUnderDebugger_phase : (s.haltUnderDebugger).phase = s.phase := rfl
@[simp] theorem State.haltUnderDebugger_typed : (s.haltUnderDebugger).typed = s.typed := rfl
@[simp] theorem State.haltUnderDebugger_commands : (s.haltUnderDebugger).commands = s.commands := rfl
@[simp] theorem State.haltUnderDebugger_reports : (s.haltUnderDebugger).reports = s.reports := rfl
@[simp] theorem State.haltUnderDebugger_freeCount : (s.haltUnderDebugger).freeCount = s.freeCount := rfl

end haltUnderDebugger

section fullReset
variable (s : State)

@[simp] theorem State.fullReset_regs : (s.fullReset).regs = Vector.replicate 16 0x0000#16 := rfl
@[simp] theorem State.fullReset_pc : (s.fullReset).pc = Config.entry := rfl
@[simp] theorem State.fullReset_mem : (s.fullReset).mem = s.params.image := rfl
@[simp] theorem State.fullReset_cycles : (s.fullReset).cycles = 0 := rfl
@[simp] theorem State.fullReset_status : (s.fullReset).status = .active := rfl
@[simp] theorem State.fullReset_cause : (s.fullReset).cause = .none := rfl
@[simp] theorem State.fullReset_faultAddr : (s.fullReset).faultAddr = 0x0000#16 := rfl
@[simp] theorem State.fullReset_mode : (s.fullReset).mode = if s.params.debugEn then .stopped else .running := rfl
@[simp] theorem State.fullReset_bp : (s.fullReset).bp = Vector.replicate 16 none := rfl
@[simp] theorem State.fullReset_bpN : (s.fullReset).bpN = 0 := rfl
@[simp] theorem State.fullReset_verbose : (s.fullReset).verbose = false := rfl
@[simp] theorem State.fullReset_started : (s.fullReset).started = false := rfl
@[simp] theorem State.fullReset_inPos : (s.fullReset).inPos = 0 := rfl
@[simp] theorem State.fullReset_outLog : (s.fullReset).outLog = [] := rfl
@[simp] theorem State.fullReset_params : (s.fullReset).params = s.params := rfl
@[simp] theorem State.fullReset_phase : (s.fullReset).phase = .check := rfl
@[simp] theorem State.fullReset_typed : (s.fullReset).typed = s.typed := rfl
@[simp] theorem State.fullReset_commands : (s.fullReset).commands = s.commands := rfl
@[simp] theorem State.fullReset_reports : (s.fullReset).reports = [] := rfl
@[simp] theorem State.fullReset_freeCount : (s.fullReset).freeCount = s.freeCount := rfl

end fullReset

section report
variable (s : State) (r : Report)

@[simp] theorem State.report_regs : (s.report r).regs = s.regs := rfl
@[simp] theorem State.report_pc : (s.report r).pc = s.pc := rfl
@[simp] theorem State.report_mem : (s.report r).mem = s.mem := rfl
@[simp] theorem State.report_cycles : (s.report r).cycles = s.cycles := rfl
@[simp] theorem State.report_status : (s.report r).status = s.status := rfl
@[simp] theorem State.report_cause : (s.report r).cause = s.cause := rfl
@[simp] theorem State.report_faultAddr : (s.report r).faultAddr = s.faultAddr := rfl
@[simp] theorem State.report_mode : (s.report r).mode = s.mode := rfl
@[simp] theorem State.report_bp : (s.report r).bp = s.bp := rfl
@[simp] theorem State.report_bpN : (s.report r).bpN = s.bpN := rfl
@[simp] theorem State.report_verbose : (s.report r).verbose = s.verbose := rfl
@[simp] theorem State.report_started : (s.report r).started = s.started := rfl
@[simp] theorem State.report_inPos : (s.report r).inPos = s.inPos := rfl
@[simp] theorem State.report_outLog : (s.report r).outLog = s.outLog := rfl
@[simp] theorem State.report_params : (s.report r).params = s.params := rfl
@[simp] theorem State.report_phase : (s.report r).phase = s.phase := rfl
@[simp] theorem State.report_typed : (s.report r).typed = s.typed := rfl
@[simp] theorem State.report_commands : (s.report r).commands = s.commands := rfl
@[simp] theorem State.report_reports : (s.report r).reports = s.reports ++ [r] := rfl
@[simp] theorem State.report_freeCount : (s.report r).freeCount = s.freeCount := rfl

end report

section resume
variable (s : State) (m : Mode)

@[simp] theorem State.resume_regs : (s.resume m).regs = s.regs := rfl
@[simp] theorem State.resume_pc : (s.resume m).pc = s.pc := rfl
@[simp] theorem State.resume_mem : (s.resume m).mem = s.mem := rfl
@[simp] theorem State.resume_cycles : (s.resume m).cycles = s.cycles := rfl
@[simp] theorem State.resume_status : (s.resume m).status = s.status := rfl
@[simp] theorem State.resume_cause : (s.resume m).cause = s.cause := rfl
@[simp] theorem State.resume_faultAddr : (s.resume m).faultAddr = s.faultAddr := rfl
@[simp] theorem State.resume_mode : (s.resume m).mode = m := rfl
@[simp] theorem State.resume_bp : (s.resume m).bp = s.bp := rfl
@[simp] theorem State.resume_bpN : (s.resume m).bpN = s.bpN := rfl
@[simp] theorem State.resume_verbose : (s.resume m).verbose = s.verbose := rfl
@[simp] theorem State.resume_started : (s.resume m).started = true := rfl
@[simp] theorem State.resume_inPos : (s.resume m).inPos = s.inPos := rfl
@[simp] theorem State.resume_outLog : (s.resume m).outLog = s.outLog := rfl
@[simp] theorem State.resume_params : (s.resume m).params = s.params := rfl
@[simp] theorem State.resume_phase : (s.resume m).phase = .execute := rfl
@[simp] theorem State.resume_typed : (s.resume m).typed = s.typed := rfl
@[simp] theorem State.resume_commands : (s.resume m).commands = s.commands := rfl
@[simp] theorem State.resume_reports : (s.resume m).reports = s.reports := rfl
@[simp] theorem State.resume_freeCount : (s.resume m).freeCount = s.freeCount := rfl

end resume

section setSlot
variable (s : State) (i : Nat) (v : Option Addr)

@[simp] theorem State.setSlot_regs : (s.setSlot i v).regs = s.regs := rfl
@[simp] theorem State.setSlot_pc : (s.setSlot i v).pc = s.pc := rfl
@[simp] theorem State.setSlot_mem : (s.setSlot i v).mem = s.mem := rfl
@[simp] theorem State.setSlot_cycles : (s.setSlot i v).cycles = s.cycles := rfl
@[simp] theorem State.setSlot_status : (s.setSlot i v).status = s.status := rfl
@[simp] theorem State.setSlot_cause : (s.setSlot i v).cause = s.cause := rfl
@[simp] theorem State.setSlot_faultAddr : (s.setSlot i v).faultAddr = s.faultAddr := rfl
@[simp] theorem State.setSlot_mode : (s.setSlot i v).mode = s.mode := rfl
@[simp] theorem State.setSlot_bp : (s.setSlot i v).bp = s.bp.setIfInBounds i v := rfl
@[simp] theorem State.setSlot_bpN : (s.setSlot i v).bpN = s.bpN := rfl
@[simp] theorem State.setSlot_verbose : (s.setSlot i v).verbose = s.verbose := rfl
@[simp] theorem State.setSlot_started : (s.setSlot i v).started = s.started := rfl
@[simp] theorem State.setSlot_inPos : (s.setSlot i v).inPos = s.inPos := rfl
@[simp] theorem State.setSlot_outLog : (s.setSlot i v).outLog = s.outLog := rfl
@[simp] theorem State.setSlot_params : (s.setSlot i v).params = s.params := rfl
@[simp] theorem State.setSlot_phase : (s.setSlot i v).phase = s.phase := rfl
@[simp] theorem State.setSlot_typed : (s.setSlot i v).typed = s.typed := rfl
@[simp] theorem State.setSlot_commands : (s.setSlot i v).commands = s.commands := rfl
@[simp] theorem State.setSlot_reports : (s.setSlot i v).reports = s.reports := rfl
@[simp] theorem State.setSlot_freeCount : (s.setSlot i v).freeCount = s.freeCount := rfl

end setSlot

section hostTypes
variable (s : State) (w : Word)

@[simp] theorem State.hostTypes_regs : (s.hostTypes w).regs = s.regs := rfl
@[simp] theorem State.hostTypes_pc : (s.hostTypes w).pc = s.pc := rfl
@[simp] theorem State.hostTypes_mem : (s.hostTypes w).mem = s.mem := rfl
@[simp] theorem State.hostTypes_cycles : (s.hostTypes w).cycles = s.cycles := rfl
@[simp] theorem State.hostTypes_status : (s.hostTypes w).status = s.status := rfl
@[simp] theorem State.hostTypes_cause : (s.hostTypes w).cause = s.cause := rfl
@[simp] theorem State.hostTypes_faultAddr : (s.hostTypes w).faultAddr = s.faultAddr := rfl
@[simp] theorem State.hostTypes_mode : (s.hostTypes w).mode = s.mode := rfl
@[simp] theorem State.hostTypes_bp : (s.hostTypes w).bp = s.bp := rfl
@[simp] theorem State.hostTypes_bpN : (s.hostTypes w).bpN = s.bpN := rfl
@[simp] theorem State.hostTypes_verbose : (s.hostTypes w).verbose = s.verbose := rfl
@[simp] theorem State.hostTypes_started : (s.hostTypes w).started = s.started := rfl
@[simp] theorem State.hostTypes_inPos : (s.hostTypes w).inPos = s.inPos := rfl
@[simp] theorem State.hostTypes_outLog : (s.hostTypes w).outLog = s.outLog := rfl
@[simp] theorem State.hostTypes_params : (s.hostTypes w).params = s.params := rfl
@[simp] theorem State.hostTypes_phase : (s.hostTypes w).phase = s.phase := rfl
@[simp] theorem State.hostTypes_typed : (s.hostTypes w).typed = s.typed ++ [w] := rfl
@[simp] theorem State.hostTypes_commands : (s.hostTypes w).commands = s.commands := rfl
@[simp] theorem State.hostTypes_reports : (s.hostTypes w).reports = s.reports := rfl
@[simp] theorem State.hostTypes_freeCount : (s.hostTypes w).freeCount = s.freeCount := rfl

end hostTypes

section hostCommands
variable (s : State) (c : Command)

@[simp] theorem State.hostCommands_regs : (s.hostCommands c).regs = s.regs := rfl
@[simp] theorem State.hostCommands_pc : (s.hostCommands c).pc = s.pc := rfl
@[simp] theorem State.hostCommands_mem : (s.hostCommands c).mem = s.mem := rfl
@[simp] theorem State.hostCommands_cycles : (s.hostCommands c).cycles = s.cycles := rfl
@[simp] theorem State.hostCommands_status : (s.hostCommands c).status = s.status := rfl
@[simp] theorem State.hostCommands_cause : (s.hostCommands c).cause = s.cause := rfl
@[simp] theorem State.hostCommands_faultAddr : (s.hostCommands c).faultAddr = s.faultAddr := rfl
@[simp] theorem State.hostCommands_mode : (s.hostCommands c).mode = s.mode := rfl
@[simp] theorem State.hostCommands_bp : (s.hostCommands c).bp = s.bp := rfl
@[simp] theorem State.hostCommands_bpN : (s.hostCommands c).bpN = s.bpN := rfl
@[simp] theorem State.hostCommands_verbose : (s.hostCommands c).verbose = s.verbose := rfl
@[simp] theorem State.hostCommands_started : (s.hostCommands c).started = s.started := rfl
@[simp] theorem State.hostCommands_inPos : (s.hostCommands c).inPos = s.inPos := rfl
@[simp] theorem State.hostCommands_outLog : (s.hostCommands c).outLog = s.outLog := rfl
@[simp] theorem State.hostCommands_params : (s.hostCommands c).params = s.params := rfl
@[simp] theorem State.hostCommands_phase : (s.hostCommands c).phase = s.phase := rfl
@[simp] theorem State.hostCommands_typed : (s.hostCommands c).typed = s.typed := rfl
@[simp] theorem State.hostCommands_commands : (s.hostCommands c).commands = s.commands ++ [c] := rfl
@[simp] theorem State.hostCommands_reports : (s.hostCommands c).reports = s.reports := rfl
@[simp] theorem State.hostCommands_freeCount : (s.hostCommands c).freeCount = s.freeCount := rfl

end hostCommands

end Sys2Proof.Machine
end

