-- ==== Sys2Proof/Laws/Memory.lean ====
section
/-! SUPPORT. Registers and memory: a read after a write, and that every memory operation keeps the canonical form. -/

namespace Sys2Proof.Machine

/-! ## Registers -/

theorem State.reg_setReg (s : State) (i j : Reg) (v : Word) :
    (s.setReg i v).reg j = if j = i then v else s.reg j := by
  simp only [State.reg, State.setReg_regs, Vector.getElem_set, Fin.ext_iff]
  simp only [eq_comm]

@[simp] theorem State.reg_setReg_same (s : State) (i : Reg) (v : Word) : (s.setReg i v).reg i = v := by
  simp [State.reg_setReg]

theorem State.reg_setReg_other (s : State) {i j : Reg} (v : Word) (h : j ≠ i) :
    (s.setReg i v).reg j = s.reg j := by
  simp [State.reg_setReg, h]

@[simp] theorem State.reg_advance (s : State) (i : Reg) : s.advance.reg i = s.reg i := rfl
@[simp] theorem State.reg_retire (s : State) (i : Reg) : s.retire.reg i = s.reg i := rfl
@[simp] theorem State.reg_setPc (s : State) (t : Word) (i : Reg) : (s.setPc t).reg i = s.reg i := rfl

/-! ## The canonical form -/

@[simp] theorem Memory.wfFrom_nil (lo : Nat) : Memory.wfFrom lo [] = true := rfl

theorem Memory.wfFrom_cons (lo k : Nat) (v : Word) (m : Memory) :
    Memory.wfFrom lo ((k, v) :: m) = true ↔
      lo ≤ k ∧ k < Config.memWords ∧ v ≠ Config.unlistedWord ∧ Memory.wfFrom (k + 1) m = true := by
  simp [Memory.wfFrom, and_assoc]

theorem Memory.wfFrom_mono {lo lo' : Nat} (h : lo' ≤ lo) {m : Memory} (hm : Memory.wfFrom lo m = true) :
    Memory.wfFrom lo' m = true := by
  cases m with
  | nil => rfl
  | cons c m =>
    rw [Memory.wfFrom_cons] at hm ⊢
    exact ⟨h.trans hm.1, hm.2⟩

/-- Below the first address of a canonical list every read gives what an unlisted address reads as. -/
theorem Memory.read_of_lt {m : Memory} {lo a : Nat} (hm : Memory.wfFrom lo m = true) (h : a < lo) :
    Memory.read m a = Config.unlistedWord := by
  induction m generalizing lo with
  | nil => rfl
  | cons c m ih =>
    rw [Memory.wfFrom_cons] at hm
    have hne : a ≠ c.1 := by omega
    simp only [Memory.read, hne, if_false]
    exact ih hm.2.2.2 (by omega)

theorem Memory.read_consCell {m : Memory} {a : Nat} (v : Word) (hm : Memory.wfFrom (a + 1) m = true) (b : Nat) :
    Memory.read (Memory.cons a v m) b = if b = a then v else Memory.read m b := by
  unfold Memory.cons
  split
  · split
    · subst_vars
      exact Memory.read_of_lt hm (by omega)
    · rfl
  · rfl

theorem Memory.wfFrom_consCell {m : Memory} {lo a : Nat} (v : Word) (h : lo ≤ a) (ha : a < Config.memWords)
    (hm : Memory.wfFrom (a + 1) m = true) : Memory.wfFrom lo (Memory.cons a v m) = true := by
  unfold Memory.cons
  split
  · exact Memory.wfFrom_mono (by omega) hm
  · rw [Memory.wfFrom_cons]
    exact ⟨h, ha, ‹_›, hm⟩

/-- A read after a write in a canonical list: the word written there, every other word as before. -/
theorem Memory.read_write {m : Memory} {lo : Nat} (hm : Memory.wfFrom lo m = true) (a : Nat) (v : Word) (b : Nat) :
    Memory.read (Memory.write m a v) b = if b = a then v else Memory.read m b := by
  induction m generalizing lo with
  | nil => exact Memory.read_consCell v rfl b
  | cons c m ih =>
    have hc := (Memory.wfFrom_cons lo c.1 c.2 m).mp hm
    simp only [Memory.write]
    split
    · refine Memory.read_consCell v ?_ b
      rw [Memory.wfFrom_cons]
      exact ⟨by omega, hc.2⟩
    · split
      · subst_vars
        rw [Memory.read_consCell v hc.2.2.2 b]
        split
        · rfl
        · simp [Memory.read, *]
      · simp only [Memory.read, ih hc.2.2.2]
        split
        · split
          · omega
          · rfl
        · rfl

/-- A write keeps the canonical form. -/
theorem Memory.wfFrom_write {m : Memory} {lo a : Nat} (hm : Memory.wfFrom lo m = true) (h : lo ≤ a)
    (ha : a < Config.memWords) (v : Word) : Memory.wfFrom lo (Memory.write m a v) = true := by
  induction m generalizing lo with
  | nil => exact Memory.wfFrom_consCell v h ha rfl
  | cons c m ih =>
    have hc := (Memory.wfFrom_cons lo c.1 c.2 m).mp hm
    simp only [Memory.write]
    split
    · refine Memory.wfFrom_consCell v h ha ?_
      rw [Memory.wfFrom_cons]
      exact ⟨by omega, hc.2⟩
    · split
      · subst_vars
        exact Memory.wfFrom_consCell v h ha hc.2.2.2
      · rw [Memory.wfFrom_cons]
        exact ⟨hc.1, hc.2.1, hc.2.2.1, ih hc.2.2.2 (by omega)⟩

theorem State.memWrite_wf {s : State} (h : s.mem.wf = true) (a : Addr) (v : Word) :
    (s.memWrite a v).mem.wf = true :=
  Memory.wfFrom_write h (Nat.zero_le _) a.isLt v

theorem State.reset_mem_wf : State.reset.mem.wf = true := rfl

end Sys2Proof.Machine
end

