-- ==== Sys2Proof/Laws/Ops.lean ====
section
/-! SUPPORT. What each shared operation can do, said once: address checks, the fetch, the console, the endings of an
instruction and the breakpoint table. -/

namespace Sys2Proof.Machine

/-! ## Address checks -/

theorem inMemory_iff (a : Word) : inMemory a = true ↔ a.toNat ≤ 255 := by simp [inMemory]

theorem toAddr_toNat {a : Word} (h : a.toNat ≤ 255) : (toAddr a).toNat = a.toNat := by
  rw [toAddr, BitVec.toNat_setWidth]; omega

theorem zext16_toNat (a : Addr) : (zext16 a).toNat = a.toNat := by
  have := a.isLt
  rw [zext16, BitVec.toNat_setWidth]; omega

theorem zext16_eq_iff (a : Addr) (w : Word) : zext16 a = w ↔ a.toNat = w.toNat := by
  rw [← BitVec.toNat_inj, zext16_toNat]

theorem State.fetch_of_le {s : State} (h : s.pc.toNat ≤ 255) : s.fetch = some (s.mem.read s.pc.toNat) := by
  rw [State.fetch, if_pos ((inMemory_iff _).mpr h), State.memRead, toAddr_toNat h]

theorem State.fetch_of_gt {s : State} (h : 255 < s.pc.toNat) : s.fetch = none := by
  rw [State.fetch, if_neg]
  rw [inMemory_iff]; omega

theorem State.indirectAddress_of_le {s : State} {rt : Reg} (h : (s.reg rt).toNat ≤ 255) :
    s.indirectAddress rt = some (toAddr (s.reg rt)) := by
  rw [State.indirectAddress, if_pos ((inMemory_iff _).mpr h)]

theorem State.indirectAddress_of_gt {s : State} {rt : Reg} (h : 255 < (s.reg rt).toNat) :
    s.indirectAddress rt = none := by
  rw [State.indirectAddress, if_neg]
  rw [inMemory_iff]; omega

theorem State.indirectAddress_advance (s : State) (rt : Reg) :
    s.advance.indirectAddress rt = s.indirectAddress rt := rfl

/-! ## The console -/

theorem State.inRead_queue {s : State} {w : Word} (h : s.params.inQueue[s.inPos]? = some w) :
    s.inRead = some (w, { s with inPos := s.inPos + 1 }) := by
  rw [State.inRead, h]

theorem State.inRead_typed {s : State} {w : Word} {ws : List Word} (h : s.params.inQueue[s.inPos]? = none)
    (ht : s.typed = w :: ws) : s.inRead = some (w, { s with inPos := s.inPos + 1, typed := ws }) := by
  rw [State.inRead, h, ht]

theorem State.inRead_none_iff (s : State) :
    s.inRead = none ↔ s.params.inQueue[s.inPos]? = none ∧ s.typed = [] := by
  unfold State.inRead
  split <;> simp_all
  split <;> simp_all

/-- `InRead()` moves the cursor and takes a word from the host's list, and does nothing else. -/
theorem State.inRead_eq {s s' : State} {w : Word} (h : s.inRead = some (w, s')) :
    s' = { s with inPos := s.inPos + 1, typed := s'.typed } := by
  unfold State.inRead at h
  split at h
  · cases h; rfl
  · split at h
    · cases h
    · cases h; rfl

/-- `InRead()` depends on the Input Queue, the cursor and the host's words only. -/
theorem State.inRead_advance (s : State) : s.advance.inRead = s.inRead.map (fun p => (p.1, p.2.advance)) := by
  unfold State.inRead
  simp only [State.advance_params, State.advance_inPos, State.advance_typed]
  split
  · rfl
  · split <;> rfl

/-- The console's half of `STORE` changes `out_log` only. -/
theorem State.printStored_eq (s : State) (a : Addr) :
    s.printStored a = { s with
      outLog := if a = Config.ioAddr then s.outLog ++ [s.memRead Config.ioAddr] else s.outLog } := by
  unfold State.printStored
  split <;> rfl

/-! ## The endings -/

theorem complete_eq (s : State) : complete s = .next { s with cycles := s.cycles + 1 } := rfl

theorem aluOp_eq (f : Word → Word → Word) (rd rs rt : Reg) (s : State) :
    aluOp f rd rs rt s = .next { s with
      regs := s.regs.set rd.val (f (s.reg rs) (s.reg rt)), pc := s.pc + 1#16, cycles := s.cycles + 1 } := rfl

theorem branchIf_eq (c : Bool) (addr : Addr) (s : State) :
    branchIf c addr s = .next { s with
      pc := if c then zext16 addr else s.pc + 1#16, cycles := s.cycles + 1 } := by
  cases c <;> rfl

/-! ## The breakpoint table -/

theorem slotMatches_iff (pc : Word) (slot : Option Addr) :
    slotMatches pc slot = true ↔ ∃ a, slot = some a ∧ a.toNat = pc.toNat := by
  cases slot <;> simp [slotMatches, zext16_eq_iff]

/-- The first slot that satisfies a test: in the table, satisfying it, and no lower one does. -/
theorem findSlot_eq_some_iff (bp : Vector (Option Addr) 16) (p : Option Addr → Bool) (i : Nat) :
    bp.toList.findIdx? p = some i ↔
      ∃ h : i < 16, p bp[i] = true ∧ ∀ j (h' : j < 16), j < i → p bp[j] = false := by
  rw [List.findIdx?_eq_some_iff_getElem]
  constructor
  · rintro ⟨h, hp, hj⟩
    have h16 : i < 16 := by simpa using h
    exact ⟨h16, by simpa using hp, fun j h' hlt => by simpa using hj j hlt⟩
  · rintro ⟨h, hp, hj⟩
    exact ⟨by simpa using h, by simpa using hp, fun j hlt => by simpa using hj j (by omega) hlt⟩

theorem findSlot_eq_none_iff (bp : Vector (Option Addr) 16) (p : Option Addr → Bool) :
    bp.toList.findIdx? p = none ↔ ∀ i (h : i < 16), p bp[i] = false := by
  rw [List.findIdx?_eq_none_iff]
  constructor
  · intro h i hi
    exact h _ (by simp)
  · intro h x hx
    obtain ⟨i, hi, rfl⟩ := List.getElem_of_mem hx
    simpa using h i (by simpa using hi)

/-- A slot of the table is set where it stands. -/
theorem State.setSlot_eq (s : State) {i : Nat} (h : i < 16) (v : Option Addr) :
    s.setSlot i v = { s with bp := s.bp.set i v } := by
  have hb : s.bp.setIfInBounds i v = s.bp.set i v := by
    apply Vector.ext
    intro j hj
    rw [Vector.getElem_setIfInBounds, Vector.getElem_set]
  rw [State.setSlot, hb]

theorem isAddress_iff (a : Nat) : isAddress a = true ↔ a ≤ 255 := by
  rw [isAddress, decide_eq_true_iff, Config.memWords]
  omega

/-- The breakpoint check changes the mode and the log of reports at most. -/
theorem State.breakCheck_cases (s : State) :
    (s.matchingSlot = none ∧ s.breakCheck = s) ∨
    ∃ i, s.matchingSlot = some i ∧
      s.breakCheck = { s with mode := .step, reports := s.reports ++ [.breakHit (i + 1) s.pc] } := by
  unfold State.breakCheck
  cases h : s.matchingSlot with
  | none => exact .inl ⟨rfl, rfl⟩
  | some i => exact .inr ⟨i, rfl, rfl⟩

/-- The trace changes the log of reports and the count of free values at most. -/
theorem State.traceIfDue_cases (s : State) :
    (s.verbose = false ∧ s.mode ≠ .step ∧ s.traceIfDue = s) ∨
    ((s.verbose = true ∨ s.mode = .step) ∧
      ((∃ w, s.fetch = some w ∧ s.traceIfDue = { s with reports := s.reports ++ [.trace s.pc w] }) ∨
       (s.fetch = none ∧ s.traceIfDue = { s with
          freeCount := s.freeCount + 1
          reports := s.reports ++ [.trace s.pc (Config.traceWordOutside s.freeCount)] }))) := by
  unfold State.traceIfDue
  by_cases h : s.verbose = true ∨ s.mode = .step
  · right
    refine ⟨h, ?_⟩
    have h' : (s.verbose || decide (s.mode = .step)) = true := by simpa using h
    rw [if_pos h']
    cases hf : s.fetch with
    | none => exact .inr ⟨rfl, rfl⟩
    | some w => exact .inl ⟨w, rfl, rfl⟩
  · left
    have h' : ¬(s.verbose || decide (s.mode = .step)) = true := by simpa using h
    rw [if_neg h']
    exact ⟨by simpa using fun hv => h (.inl hv), fun hm => h (.inr hm), rfl⟩

/-! ## The window of `list` -/

/-- The cells shown from `lo` on are those below 256. -/
theorem State.cellsFrom_eq (s : State) (lo n : Nat) :
    s.cellsFrom lo n = (List.range (min n (256 - lo))).map (fun k => (lo + k, s.mem.read (lo + k))) := by
  have key : ∀ n, ((List.range n).map (fun k => lo + k)).filter isAddress =
      (List.range (min n (256 - lo))).map (fun k => lo + k) := by
    intro n
    induction n with
    | zero => simp
    | succ n ih =>
      rw [List.range_succ, List.map_append, List.filter_append, ih]
      by_cases h : lo + n < 256
      · have ha : isAddress (lo + n) = true := (isAddress_iff _).mpr (by omega)
        rw [show min n (256 - lo) = n by omega, show min (n + 1) (256 - lo) = n + 1 by omega, List.range_succ]
        simp [ha]
      · have ha : isAddress (lo + n) = false := by
          rw [Bool.eq_false_iff, ne_eq, isAddress_iff]
          omega
        rw [show min n (256 - lo) = min (n + 1) (256 - lo) by omega]
        simp [ha]
  rw [State.cellsFrom, key, List.map_map]
  rfl

/-- The number of cells before the address is below the size of the window. -/
theorem windowBelow_lt {n : Nat} (hn : 0 < n) (c : Nat) : windowBelow n c < n := by
  unfold windowBelow
  split
  · unfold centredBelow
    split
    · omega
    · split <;> omega
  · exact Nat.mod_lt _ hn

/-- A window of odd size that lies in memory is centred. -/
theorem windowBelow_odd {n c : Nat} (hn : n % 2 = 1) (hlo : n / 2 ≤ c) (hhi : c + n / 2 ≤ 255) :
    windowBelow n c = n / 2 := by
  have h : centredBelow n c = n / 2 := by rw [centredBelow, if_pos hn]
  rw [windowBelow, h, if_pos ⟨hlo, by show c + n ≤ 256 + n / 2; omega⟩]

/-- A window of even size that lies in memory has its address in one of its two middle cells. -/
theorem windowBelow_even {n c : Nat} (hn : n % 2 = 0) (hlo : n / 2 ≤ c) (hhi : c + n / 2 ≤ 255) :
    windowBelow n c = n / 2 ∨ windowBelow n c = n / 2 - 1 := by
  have h : centredBelow n c = n / 2 ∨ centredBelow n c = n / 2 - 1 := by
    rw [centredBelow, if_neg (by omega)]
    split <;> simp
  rw [windowBelow, if_pos ⟨by omega, by show c + n ≤ 256 + centredBelow n c; omega⟩]
  exact h

/-- Around an address of memory the window is a run of cells, all in memory. -/
theorem State.windowAround_eq (s : State) {c : Nat} (hc : c ≤ 255) :
    s.windowAround c =
      (List.range (min (c + s.params.listWindow - windowBelow s.params.listWindow c
          - (c - windowBelow s.params.listWindow c)) (256 - (c - windowBelow s.params.listWindow c)))).map
        (fun k => (c - windowBelow s.params.listWindow c + k,
          s.mem.read (c - windowBelow s.params.listWindow c + k))) := by
  rw [State.windowAround]
  dsimp only
  rw [if_pos ((isAddress_iff c).mpr hc), State.cellsFrom_eq]

end Sys2Proof.Machine
end

