-- ==== Sys2Proof/Laws/Exec.lean ====
section
/-! SUPPORT. What executing one instruction can do, said once. -/

namespace Sys2Proof.Machine

/-- The instruction `i` completes from `s` in `t` (it is not `HALT`): at most its destination register, the word it stores
to, `pc`, the console and the cycle count have changed. -/
structure Completes (i : Instr) (s t : State) : Prop where
  ne_halt : i ≠ .halt
  eq : t = { s with
    regs := t.regs, pc := t.pc, mem := t.mem, outLog := t.outLog, inPos := t.inPos, typed := t.typed
    cycles := s.cycles + 1 }
  regs : ∀ r, i.destReg ≠ some r → t.reg r = s.reg r
  mem_none : i.storesTo s = none → t.mem = s.mem
  mem_some : ∀ a r, i.storesTo s = some (a, r) → t.mem = s.mem.write a.toNat (s.reg r)
  outLog : t.outLog = if i.writesConsole then s.outLog ++ [t.memRead Config.ioAddr] else s.outLog
  console : i.readsConsole = false → t.inPos = s.inPos ∧ t.typed = s.typed
  input : i.readsConsole = true → ∃ w s', s.inRead = some (w, s') ∧ t.inPos = s'.inPos ∧ t.typed = s'.typed

theorem Completes.status_eq {i : Instr} {s t : State} (h : Completes i s t) : t.status = s.status := by rw [h.eq]
theorem Completes.cycles_eq {i : Instr} {s t : State} (h : Completes i s t) : t.cycles = s.cycles + 1 := by rw [h.eq]
theorem Completes.params_eq {i : Instr} {s t : State} (h : Completes i s t) : t.params = s.params := by rw [h.eq]

theorem readsConsole_iff (i : Instr) : i.readsConsole = true ↔ ∃ rd, i = .load rd 0xFF#8 := by
  cases i with
  | load rd addr => rw [Instr.readsConsole, decide_eq_true_iff]; simp [directAddress, Config.ioAddr]
  | _ => simp [Instr.readsConsole]

theorem writesConsole_iff (i : Instr) : i.writesConsole = true ↔ ∃ rd, i = .store rd 0xFF#8 := by
  cases i with
  | store rd addr => rw [Instr.writesConsole, decide_eq_true_iff]; simp [directAddress, Config.ioAddr]
  | _ => simp [Instr.writesConsole]

/-- What `exec` answers: `HALT` ends the run or resets the machine, a console read may wait, an indirect address may
fault, and everything else completes. -/
theorem exec_cases (i : Instr) (s : State) :
    (i = .halt ∧ s.params.debugEn = false ∧ exec i s = .next { s.advance with status := .halted }) ∨
    (i = .halt ∧ s.params.debugEn = true ∧ exec i s = .next s.advance.haltUnderDebugger) ∨
    ((∃ rd, i = .load rd 0xFF#8) ∧ s.inRead = none ∧ exec i s = .next s) ∨
    (∃ rd rt, (i = .loadr rd rt ∨ i = .storer rd rt) ∧ 255 < (s.reg rt).toNat ∧
      exec i s = .next (s.advance.raiseFault .illegalAddress (s.reg rt))) ∨
    ∃ t, Completes i s t ∧ exec i s = .next t := by
  cases i with
  | halt =>
    cases h : s.params.debugEn
    · exact .inl ⟨rfl, rfl, by simp [exec, execHalt, h]⟩
    · exact .inr (.inl ⟨rfl, rfl, by simp [exec, execHalt, h]⟩)
  | load rd addr =>
    by_cases ha : addr = Config.ioAddr
    · subst ha
      cases hr : s.inRead with
      | none =>
        refine .inr (.inr (.inl ⟨⟨rd, rfl⟩, rfl, ?_⟩))
        simp [exec, execLoad, directAddress, State.inRead_advance, hr]
      | some p =>
        obtain ⟨w, s'⟩ := p
        refine .inr (.inr (.inr (.inr ⟨(s'.advance.setReg rd w).retire, ?_, ?_⟩)))
        · have hs' := State.inRead_eq hr
          refine ⟨by simp, ?_, ?_, ?_, by simp [Instr.storesTo], ?_, by simp [Instr.readsConsole, directAddress], ?_⟩
          · rw [hs']; rfl
          · intro r h
            rw [State.reg_retire, State.reg_setReg_other _ _ (by simpa [Instr.destReg, eq_comm] using h), hs']; rfl
          · intro _; rw [hs']; rfl
          · rw [hs']; rfl
          · intro _; exact ⟨w, s', hr, rfl, rfl⟩
        · simp [exec, execLoad, directAddress, State.inRead_advance, hr, complete]
    · refine .inr (.inr (.inr (.inr ⟨_, ?_, by rw [exec, execLoad, directAddress, if_neg ha]; rfl⟩)))
      refine ⟨by simp, rfl, ?_, fun _ => rfl, by simp [Instr.storesTo], rfl, fun _ => ⟨rfl, rfl⟩, ?_⟩
      · intro r h
        rw [State.reg_retire, State.reg_setReg_other _ _ (by simpa [Instr.destReg, eq_comm] using h)]; rfl
      · simp [Instr.readsConsole, directAddress, ha]
  | loadr rd rt =>
    by_cases h : (s.reg rt).toNat ≤ 255
    · refine .inr (.inr (.inr (.inr ⟨(s.advance.setReg rd (s.advance.memRead (toAddr (s.reg rt)))).retire, ?_, ?_⟩)))
      · refine ⟨by simp, rfl, ?_, fun _ => rfl, by simp [Instr.storesTo], rfl, fun _ => ⟨rfl, rfl⟩,
          by simp [Instr.readsConsole]⟩
        intro r h
        rw [State.reg_retire, State.reg_setReg_other _ _ (by simpa [Instr.destReg, eq_comm] using h)]; rfl
      · rw [exec, execLoadr, State.indirectAddress_advance, State.indirectAddress_of_le h]; rfl
    · refine .inr (.inr (.inr (.inl ⟨rd, rt, .inl rfl, by omega, ?_⟩)))
      rw [exec, execLoadr, State.indirectAddress_advance, State.indirectAddress_of_gt (by omega)]
  | storer rd rt =>
    by_cases h : (s.reg rt).toNat ≤ 255
    · refine .inr (.inr (.inr (.inr ⟨(s.advance.memWrite (toAddr (s.reg rt)) (s.reg rd)).retire, ?_, ?_⟩)))
      · refine ⟨by simp, rfl, fun _ _ => rfl, ?_, ?_, rfl, fun _ => ⟨rfl, rfl⟩, by simp [Instr.readsConsole]⟩
        · simp [Instr.storesTo, State.indirectAddress_advance, State.indirectAddress_of_le h]
        · intro a r hs
          simp only [Instr.storesTo, State.indirectAddress_advance, State.indirectAddress_of_le h, Option.map_some,
            Option.some.injEq, Prod.mk.injEq] at hs
          obtain ⟨rfl, rfl⟩ := hs
          rfl
      · rw [exec, execStorer, State.indirectAddress_advance, State.indirectAddress_of_le h]; rfl
    · refine .inr (.inr (.inr (.inl ⟨rd, rt, .inr rfl, by omega, ?_⟩)))
      rw [exec, execStorer, State.indirectAddress_advance, State.indirectAddress_of_gt (by omega)]
  | store rd addr =>
    refine .inr (.inr (.inr (.inr ⟨_, ?_, rfl⟩)))
    rw [State.printStored_eq]
    refine ⟨by simp, rfl, fun _ _ => rfl, by simp [Instr.storesTo], ?_, ?_, fun _ => ⟨rfl, rfl⟩,
      by simp [Instr.readsConsole]⟩
    · intro a r hs
      simp only [Instr.storesTo, Option.some.injEq, Prod.mk.injEq] at hs
      obtain ⟨rfl, rfl⟩ := hs
      rfl
    · by_cases h : addr = Config.ioAddr
      · subst h; simp [Instr.writesConsole, directAddress, State.memRead]
      · simp [Instr.writesConsole, directAddress, h]
  | beqz rd addr =>
    refine .inr (.inr (.inr (.inr ⟨_, ?_, branchIf_eq _ _ _⟩)))
    exact ⟨by simp, rfl, fun _ _ => rfl, fun _ => rfl, by simp [Instr.storesTo], rfl, fun _ => ⟨rfl, rfl⟩,
      by simp [Instr.readsConsole]⟩
  | bgtz rd addr =>
    refine .inr (.inr (.inr (.inr ⟨_, ?_, branchIf_eq _ _ _⟩)))
    exact ⟨by simp, rfl, fun _ _ => rfl, fun _ => rfl, by simp [Instr.storesTo], rfl, fun _ => ⟨rfl, rfl⟩,
      by simp [Instr.readsConsole]⟩
  | jr rd =>
    refine .inr (.inr (.inr (.inr ⟨_, ?_, rfl⟩)))
    exact ⟨by simp, rfl, fun _ _ => rfl, fun _ => rfl, by simp [Instr.storesTo], rfl, fun _ => ⟨rfl, rfl⟩,
      by simp [Instr.readsConsole]⟩
  | _ rd =>
    refine .inr (.inr (.inr (.inr ⟨_, ?_, rfl⟩)))
    refine ⟨by simp, rfl, ?_, fun _ => rfl, by simp [Instr.storesTo], rfl, fun _ => ⟨rfl, rfl⟩,
      by simp [Instr.readsConsole]⟩
    intro r h
    first
      | (rw [State.reg_retire, State.reg_setReg_other _ _ (by simpa [Instr.destReg, eq_comm] using h)]; rfl)
      | (rw [State.reg_retire, State.reg_setPc, State.reg_setReg_other _ _ (by simpa [Instr.destReg, eq_comm] using h)]; rfl)

/-- `exec` answers a next state, whatever the instruction and the state. -/
theorem exec_next (i : Instr) (s : State) : ∃ t, exec i s = .next t := by
  rcases exec_cases i s with ⟨_, _, h⟩ | ⟨_, _, h⟩ | ⟨_, _, h⟩ | ⟨_, _, _, _, h⟩ | ⟨t, _, h⟩
  all_goals exact ⟨_, h⟩

end Sys2Proof.Machine
end

