-- ==== Sys2Proof/Laws/PerInstr.lean ====
section
/-! SUPPORT. Statements made per instruction, one lemma per constructor: the opcode nibble of the word an instruction is
encoded as is its opcode (spec/30_encoding.md R85). -/

namespace Sys2Proof.Laws.EncodedOpcode

/-- The most significant nibble of the canonical word is the instruction's opcode. -/
def Statement (i : Instr) : Prop := field (encode i) 3 = i.opcode

theorem halt : Statement .halt := field_format1_op ..
theorem add (rd rs rt : Reg) : Statement (.add rd rs rt) := field_format1_op ..
theorem sub (rd rs rt : Reg) : Statement (.sub rd rs rt) := field_format1_op ..
theorem and (rd rs rt : Reg) : Statement (.and rd rs rt) := field_format1_op ..
theorem xor (rd rs rt : Reg) : Statement (.xor rd rs rt) := field_format1_op ..
theorem shl (rd rs rt : Reg) : Statement (.shl rd rs rt) := field_format1_op ..
theorem shr (rd rs rt : Reg) : Statement (.shr rd rs rt) := field_format1_op ..
theorem loadi (rd : Reg) (addr : Addr) : Statement (.loadi rd addr) := field_format2_op ..
theorem load (rd : Reg) (addr : Addr) : Statement (.load rd addr) := field_format2_op ..
theorem store (rd : Reg) (addr : Addr) : Statement (.store rd addr) := field_format2_op ..
theorem loadr (rd rt : Reg) : Statement (.loadr rd rt) := field_format1_op ..
theorem storer (rd rt : Reg) : Statement (.storer rd rt) := field_format1_op ..
theorem beqz (rd : Reg) (addr : Addr) : Statement (.beqz rd addr) := field_format2_op ..
theorem bgtz (rd : Reg) (addr : Addr) : Statement (.bgtz rd addr) := field_format2_op ..
theorem jr (rd : Reg) : Statement (.jr rd) := field_format1_op ..
theorem jalr (rd : Reg) (addr : Addr) : Statement (.jalr rd addr) := field_format2_op ..

end Sys2Proof.Laws.EncodedOpcode
end

