-- ==== Sys2Proof/Laws/Step.lean ====
section
/-! SUPPORT. What one step can do, said once: the engine, the three items of the controller's loop, the ended run. -/

namespace Sys2Proof.Machine

/-! ## The engine -/

theorem engineStep_of_le {s : State} (h : s.pc.toNat ≤ 255) :
    engineStep s = exec (decode (s.mem.read s.pc.toNat)) s := by
  rw [engineStep, State.fetch_of_le h]

theorem engineStep_of_gt {s : State} (h : 255 < s.pc.toNat) :
    engineStep s = .next (s.raiseFault .illegalFetch s.pc) := by
  rw [engineStep, State.fetch_of_gt h]

theorem instrAtPc_of_le {s : State} (h : s.pc.toNat ≤ 255) :
    s.instrAtPc = some (decode (s.mem.read s.pc.toNat)) := by
  rw [State.instrAtPc, State.fetch_of_le h]; rfl

theorem instrAtPc_of_gt {s : State} (h : 255 < s.pc.toNat) : s.instrAtPc = none := by
  rw [State.instrAtPc, State.fetch_of_gt h]; rfl

/-- The engine takes `IllegalFetch` or executes the instruction at `pc`. -/
theorem engineStep_cases (s : State) :
    (255 < s.pc.toNat ∧ s.instrAtPc = none ∧ engineStep s = .next (s.raiseFault .illegalFetch s.pc)) ∨
    (s.pc.toNat ≤ 255 ∧ ∃ i, s.instrAtPc = some i ∧ engineStep s = exec i s) := by
  by_cases h : s.pc.toNat ≤ 255
  · exact .inr ⟨h, _, instrAtPc_of_le h, engineStep_of_le h⟩
  · exact .inl ⟨by omega, instrAtPc_of_gt (by omega), engineStep_of_gt (by omega)⟩

theorem engineStep_next (s : State) : ∃ t, engineStep s = .next t := by
  rcases engineStep_cases s with ⟨_, _, h⟩ | ⟨_, i, _, h⟩
  · exact ⟨_, h⟩
  · obtain ⟨t, ht⟩ := exec_next i s
    exact ⟨t, h.trans ht⟩

theorem heldForInput_of_le {s : State} (h : s.pc.toNat ≤ 255) :
    s.heldForInput = ((decode (s.mem.read s.pc.toNat)).readsConsole && s.inRead.isNone) := by
  rw [State.heldForInput, State.fetch_of_le h]

theorem heldForInput_iff (s : State) :
    s.heldForInput = true ↔ (∃ rd, s.instrAtPc = some (.load rd 0xFF#8)) ∧ s.inRead = none := by
  by_cases h : s.pc.toNat ≤ 255
  · rw [heldForInput_of_le h, instrAtPc_of_le h, Bool.and_eq_true, readsConsole_iff, Option.isNone_iff_eq_none]
    simp
  · rw [State.heldForInput, State.fetch_of_gt (by omega), instrAtPc_of_gt (by omega)]
    simp

/-! ## The controller's loop -/

/-- Items 1 and 2 change the mode, the loop position, the log of reports and the count of free values at most. -/
theorem checkPhase_eq (s : State) :
    checkPhase s = { s with
      mode := if s.matchingSlot.isSome then .step else s.mode
      phase := if s.matchingSlot.isSome ∨ s.mode ≠ .running then .prompt else .execute
      reports := (checkPhase s).reports, freeCount := (checkPhase s).freeCount } := by
  have key : ∀ u : State, (∃ r f, u.traceIfDue = { u with reports := r, freeCount := f }) := by
    intro u
    rcases u.traceIfDue_cases with ⟨_, _, h⟩ | ⟨_, ⟨_, _, h⟩ | ⟨_, h⟩⟩ <;> rw [h]
    · exact ⟨u.reports, u.freeCount, rfl⟩
    · exact ⟨_, u.freeCount, rfl⟩
    · exact ⟨_, _, rfl⟩
  unfold checkPhase
  rcases s.breakCheck_cases with ⟨hm, hb⟩ | ⟨i, hm, hb⟩
  · obtain ⟨r, f, ht⟩ := key s
    rw [hb, ht, hm]
    by_cases h : s.mode = .running <;> simp [h]
  · obtain ⟨r, f, ht⟩ := key { s with mode := .step, reports := s.reports ++ [.breakHit (i + 1) s.pc] }
    rw [hb, ht, hm]
    simp

/-- What a step does, by the status of the run, `DEBUG_EN` and the position in the loop. -/
theorem step_cases (s : State) :
    (s.status ≠ .active ∧ step s = .next s) ∨
    (s.status = .active ∧ s.params.debugEn = false ∧ step s = engineStep s) ∨
    (s.status = .active ∧ s.params.debugEn = true ∧
      ((s.phase = .check ∧ step s = .next (checkPhase s)) ∨
       (s.phase = .prompt ∧ s.mode = .running ∧ step s = .next { s with phase := .execute }) ∨
       (s.asksHost ∧ s.commands = [] ∧ step s = .next s) ∨
       (s.asksHost ∧ ∃ c cs, s.commands = c :: cs ∧ step s = .next (interpret c { s with commands := cs })) ∨
       (s.phase = .execute ∧ s.heldForInput = true ∧ step s = .next s) ∨
       (s.phase = .execute ∧ s.heldForInput = false ∧ step s = engineStep { s with phase := .check }))) := by
  by_cases hs : s.status = .active
  case neg =>
    refine .inl ⟨hs, ?_⟩
    unfold step
    split <;> first | rfl | contradiction
  right
  cases hd : s.params.debugEn
  case false =>
    refine .inl ⟨hs, rfl, ?_⟩
    unfold step
    rw [hs, hd]
    rfl
  refine .inr ⟨hs, rfl, ?_⟩
  have hstep : step s = controllerStep s := by
    unfold step
    rw [hs, hd]
    rfl
  rw [hstep]
  unfold controllerStep
  by_cases h1 : s.phase = .check
  · refine .inl ⟨h1, ?_⟩
    rw [h1]
  by_cases h2 : s.phase = .prompt
  · refine .inr ?_
    by_cases hm : s.mode = .running
    · refine .inl ⟨h2, hm, ?_⟩
      rw [h2]
      simp only [promptPhase, if_pos hm]
    · have ha : s.asksHost := ⟨hs, hd, h2, hm⟩
      cases hc : s.commands with
      | nil =>
        refine .inr (.inl ⟨ha, rfl, ?_⟩)
        rw [h2]
        simp only [promptPhase, if_neg hm, hc]
      | cons c cs =>
        refine .inr (.inr (.inl ⟨ha, c, cs, rfl, ?_⟩))
        rw [h2]
        simp only [promptPhase, if_neg hm, hc]
        rw [h2]
  · have h3 : s.phase = .execute := by
      cases h : s.phase <;> simp_all
    refine .inr (.inr (.inr (.inr ?_)))
    rw [h3]
    cases hh : s.heldForInput
    · refine .inr ⟨rfl, rfl, ?_⟩
      simp only [executePhase, hh, Bool.false_eq_true, if_false]
    · refine .inl ⟨rfl, rfl, ?_⟩
      simp only [executePhase, hh, if_true]

/-- With the debugger disabled a step of an active run is one step of the engine (R223). -/
theorem step_freeRun {s : State} (hs : s.status = .active) (hd : s.params.debugEn = false) : step s = engineStep s := by
  rcases step_cases s with ⟨h, _⟩ | ⟨_, _, h⟩ | ⟨_, h, _⟩
  · exact absurd hs h
  · exact h
  · rw [hd] at h
    cases h

/-! ## The commands -/

/-- What a command that does not reset the machine may change: the debugger's state, the status, the log of reports and
the count of free values; nothing of the Machine State or the console. -/
structure DebuggerOnly (s t : State) : Prop where
  eq : t = { s with
    mode := t.mode, bp := t.bp, bpN := t.bpN, verbose := t.verbose, started := t.started, phase := t.phase
    status := t.status, reports := t.reports, freeCount := t.freeCount }

theorem addBreakpoint_debuggerOnly (s : State) (a : Addr) : DebuggerOnly s (s.addBreakpoint a) := by
  unfold State.addBreakpoint
  split
  · exact ⟨rfl⟩
  · split <;> exact ⟨rfl⟩

theorem deleteBreakpoint_debuggerOnly (s : State) (n : Nat) : DebuggerOnly s (s.deleteBreakpoint n) := by
  unfold State.deleteBreakpoint
  split
  · exact ⟨rfl⟩
  · dsimp only
    split <;> exact ⟨rfl⟩

/-- A command changes the debugger's state only, or is a `run` that restarts the program. -/
theorem interpret_cases (c : Command) (s : State) :
    DebuggerOnly s (interpret c s) ∨
    (c = .run true ∧ s.started = true ∧ interpret c s = s.machineReset.resume .running) := by
  cases c with
  | run confirm =>
    cases hs : s.started <;> cases confirm
    · exact .inl (by simp only [interpret, cmdRun, hs]; exact ⟨rfl⟩)
    · exact .inl (by simp only [interpret, cmdRun, hs]; exact ⟨rfl⟩)
    · exact .inl (by simp only [interpret, cmdRun, hs]; exact ⟨rfl⟩)
    · exact .inr ⟨rfl, rfl, by simp [interpret, cmdRun, hs]⟩
  | next confirm =>
    left
    simp only [interpret, cmdNext]
    split <;> exact ⟨rfl⟩
  | brk a =>
    left
    simp only [interpret, cmdBreak]
    split
    · split
      · exact addBreakpoint_debuggerOnly _ _
      · exact ⟨rfl⟩
    · exact ⟨rfl⟩
  | delete n =>
    left
    simp only [interpret, cmdDelete]
    split
    · split
      · exact deleteBreakpoint_debuggerOnly _ _
      · exact ⟨rfl⟩
    · exact ⟨rfl⟩
  | list arg =>
    left
    cases arg <;> simp only [interpret, cmdList]
    · exact ⟨rfl⟩
    · split <;> exact ⟨rfl⟩
    · split <;> exact ⟨rfl⟩
    · exact ⟨rfl⟩
  | _ => exact .inl ⟨rfl⟩

/-- Only `quit` writes the status. -/
theorem interpret_status (c : Command) (s : State) : (interpret c s).status = s.status ∨ c = .quit := by
  cases c with
  | quit => exact .inr rfl
  | run y => left; simp only [interpret, cmdRun]; split <;> [split; skip] <;> rfl
  | next y => left; simp only [interpret, cmdNext]; split <;> rfl
  | brk a =>
    left
    simp only [interpret, cmdBreak, State.addBreakpoint]
    split <;> [split; skip] <;> [split; skip; skip] <;> [skip; split; skip; skip] <;> rfl
  | delete n =>
    left
    simp only [interpret, cmdDelete, State.deleteBreakpoint]
    split <;> [split; skip] <;> [split; skip; skip] <;> [skip; split; skip; skip] <;> rfl
  | list arg => left; cases arg <;> simp only [interpret, cmdList] <;> (try split) <;> rfl
  | _ => exact .inl rfl

end Sys2Proof.Machine
end

