-- ==== Sys2Proof/Tests/Slice0.lean ====
section
/-! SUPPORT. Tests. Expected values are those of spec/95_test_vectors.md, each named by its id, or worked out from the rule
named; no value is the model's own answer. The second half holds a witness for each statement that has hypotheses. -/

namespace Sys2Proof.Tests

open Sys2Proof.Machine

/-! ## Helpers -/

/-- The reset state with the word `w` at `p`, `pc` there, three cycles counted, and some registers set. -/
def atWord (p : Addr) (w : Word) (regs : List (Reg × Word)) : State :=
  regs.foldl (fun s r => s.setReg r.1 r.2) ({ State.reset with pc := zext16 p, cycles := 3 }.memWrite p w)

/-- The state one step later. -/
def after (s : State) : State :=
  match step s with
  | .next t => t
  | .fault _ => s
  | .refused _ => s

/-- A run with the debugger enabled, right after its full reset, its loop at the given position. -/
def debugged (m : Mode) (p : Phase) (pc : Word) : State :=
  { State.startRun { Params.default with debugEn := true } State.reset with
    mode := m, phase := p, pc := pc, started := decide (m ≠ .stopped) }

/-- A debugged run at the prompt with one command pending. -/
def prompted (c : Command) : State := (debugged .step .prompt 0x0020#16).hostCommands c

/-- The state with breakpoints at the given slots. -/
def withSlots (s : State) (n : Nat) (slots : List (Nat × Addr)) : State :=
  slots.foldl (fun t p => t.setSlot p.1 (some p.2)) { s with bpN := n }

/-! ## WellFormed: one ill-formed command for each check, refused (R210, R211, R214) -/

theorem test_wellFormed_break_256 : Command.wellFormed (.brk (some 256)) = false := by decide
theorem test_wellFormed_break_noNumber : Command.wellFormed (.brk none) = false := by decide
theorem test_wellFormed_delete_0 : Command.wellFormed (.delete (some 0)) = false := by decide
theorem test_wellFormed_delete_17 : Command.wellFormed (.delete (some 17)) = false := by decide
theorem test_wellFormed_delete_noNumber : Command.wellFormed (.delete none) = false := by decide
theorem test_wellFormed_list_around_256 : Command.wellFormed (.list (.around 256)) = false := by decide
theorem test_wellFormed_list_from_256 : Command.wellFormed (.list (.range 256 0)) = false := by decide
theorem test_wellFormed_list_to_256 : Command.wellFormed (.list (.range 0 256)) = false := by decide
theorem test_wellFormed_list_malformed : Command.wellFormed (.list .malformed) = false := by decide
theorem test_wellFormed_bounds :
    Command.wellFormed (.brk (some 255)) = true ∧ Command.wellFormed (.delete (some 1)) = true ∧
    Command.wellFormed (.delete (some 16)) = true ∧ Command.wellFormed (.list (.range 0 255)) = true := by decide

/-! ## Decode: a word of every row of spec/30_encoding.md R85, written out bit by bit from its pattern -/

theorem test_decode_halt : decode 0b0000_1010_1011_1100#16 = .halt := by decide                 -- V-H2, 0x0ABC
theorem test_decode_add : decode 0b0001_0011_0001_0010#16 = .add 3 1 2 := by decide             -- S2, 0x1312
theorem test_decode_sub : decode 0b0010_0011_0001_0010#16 = .sub 3 1 2 := by decide             -- S3, 0x2312
theorem test_decode_and : decode 0b0011_0011_0001_0010#16 = .and 3 1 2 := by decide             -- 0x3312
theorem test_decode_xor : decode 0b0100_0011_0001_0010#16 = .xor 3 1 2 := by decide             -- 0x4312
theorem test_decode_shl : decode 0b0101_0011_0001_0010#16 = .shl 3 1 2 := by decide             -- 0x5312
theorem test_decode_shr : decode 0b0110_0011_0001_0010#16 = .shr 3 1 2 := by decide             -- S4, 0x6312
theorem test_decode_loadi : decode 0b0111_1111_1111_1111#16 = .loadi 15 0xFF#8 := by decide     -- V-M2, 0x7FFF
theorem test_decode_load : decode 0b1000_0001_0010_0000#16 = .load 1 0x20#8 := by decide        -- V-M4, 0x8120
theorem test_decode_store : decode 0b1001_0011_0010_0000#16 = .store 3 0x20#8 := by decide      -- V-M9, 0x9320
theorem test_decode_loadr : decode 0b1010_0011_1110_0001#16 = .loadr 3 1 := by decide           -- V-M12, 0xA3E1
theorem test_decode_storer : decode 0b1011_0010_1111_0001#16 = .storer 2 1 := by decide         -- V-M20, 0xB2F1
theorem test_decode_beqz : decode 0b1100_0001_0001_0111#16 = .beqz 1 0x17#8 := by decide        -- V-C1, 0xC117
theorem test_decode_bgtz : decode 0b1101_0001_0001_0010#16 = .bgtz 1 0x12#8 := by decide        -- V-C6, 0xD112
theorem test_decode_jr : decode 0b1110_1110_1010_1011#16 = .jr 14 := by decide                  -- V-C13, 0xEEAB
theorem test_decode_jalr : decode 0b1111_1110_0001_1000#16 = .jalr 14 0x18#8 := by decide       -- V-C16, 0xFE18

theorem test_encode_clears_ignored : encode (.loadr 3 1) = 0xA301#16 ∧ encode (.jr 14) = 0xEE00#16 := by decide

theorem test_decodeTableWord : decodeTableWord 16 0x7105 = some (.loadi 1 0x05#8) := by decide
theorem test_decodeTableWord_short : decodeTableWord 8 0xFF = some .halt := by decide  -- the missing opcode bits are 0

/-! ## One step of each instruction -/

theorem test_halt : after (atWord 0x17#8 0x0ABC#16 []) =  -- V-H1, V-H2
    { atWord 0x17#8 0x0ABC#16 [] with status := .halted, pc := 0x0018#16 } := by decide
theorem test_halt_debugger :  -- V-H7
    let s := { withSlots (debugged .running .execute 0x0022#16) 1 [(0, 0x20#8)] with cycles := 3 }.setReg 1 7
    (after (s.memWrite 0xFF#8 7)) = { s with
      pc := 0x0010#16, regs := Vector.replicate 16 0x0000#16, cycles := 0, mem := [], mode := .stopped, started := false
      phase := .check } := by decide

theorem test_add_wraps : (after (atWord 0x20#8 0x1312#16 [(1, 0xFFFF#16), (2, 0x0001#16)])).reg 3 = 0x0000#16 := by
  decide  -- S2
theorem test_add_reg0 :  -- R120's aliasing table, D7
    after (atWord 0x20#8 0x1001#16 [(0, 5), (1, 7)]) =
      { atWord 0x20#8 0x1001#16 [(0, 0x000C#16), (1, 7)] with pc := 0x0021#16, cycles := 4 } := by decide

theorem test_sub_order : (after (atWord 0x20#8 0x2312#16 [(1, 0x0FF0#16), (2, 0x1234#16)])).reg 3 = 0xFDBC#16 := by decide
theorem test_sub_wraps : (after (atWord 0x20#8 0x2312#16 [(1, 0x0000#16), (2, 0x0001#16)])).reg 3 = 0xFFFF#16 := by
  decide  -- S3

theorem test_and : (after (atWord 0x20#8 0x3312#16 [(1, 0xF0F0#16), (2, 0xFF00#16)])).reg 3 = 0xF000#16 := by decide
theorem test_xor : (after (atWord 0x20#8 0x4312#16 [(1, 0xF0F0#16), (2, 0xFF00#16)])).reg 3 = 0x0FF0#16 := by decide

theorem test_shl_32 : (after (atWord 0x20#8 0x5312#16 [(1, 0xFFFF#16), (2, 0x0020#16)])).reg 3 = 0x0000#16 := by decide
theorem test_shl_alias : (after (atWord 0x20#8 0x5111#16 [(1, 0x0002#16)])).reg 1 = 0x0008#16 := by decide

theorem test_shr_sign : (after (atWord 0x20#8 0x6312#16 [(1, 0x8001#16), (2, 0x0004#16)])).reg 3 = 0xF800#16 := by decide
theorem test_shr_16 : (after (atWord 0x20#8 0x6312#16 [(1, 0x8000#16), (2, 0x0010#16)])).reg 3 = 0xFFFF#16 := by decide

theorem test_loadi : after (atWord 0x20#8 0x7FFF#16 [(15, 0xABCD#16)]) =  -- V-M2
    { atWord 0x20#8 0x7FFF#16 [(15, 0x00FF#16)] with pc := 0x0021#16, cycles := 4 } := by decide

theorem test_load : (after ((atWord 0x10#8 0x8120#16 []).memWrite 0x20#8 0x7342#16)).reg 1 = 0x7342#16 := by
  decide  -- V-M4
theorem test_load_console :  -- V-M6
    let s := { (atWord 0x10#8 0x81FF#16 []).memWrite 0xFF#8 0x5555#16 with
      params := { Params.default with inQueue := [0x0008#16, 0x0009#16] } }
    after s = { s.setReg 1 0x0008#16 with pc := 0x0011#16, cycles := 4, inPos := 1 } := by decide

theorem test_store_console :  -- V-M8
    let s := atWord 0x10#8 0x93FF#16 [(3, 0x000F#16)]
    after s = { s with pc := 0x0011#16, cycles := 4, outLog := [0x000F#16], mem := s.mem ++ [(255, 0x000F#16)] } := by
  decide
theorem test_store_plain :  -- V-M9
    let s := atWord 0x10#8 0x9320#16 [(3, 0x000F#16)]
    after s = { s with pc := 0x0011#16, cycles := 4, mem := s.mem ++ [(32, 0x000F#16)] } := by decide

theorem test_loadr_255 :  -- V-M14
    let s := (atWord 0x10#8 0xA301#16 [(1, 0x00FF#16)]).memWrite 0xFF#8 0x0077#16
    after s = { s.setReg 3 0x0077#16 with pc := 0x0011#16, cycles := 4 } := by decide
theorem test_loadr_256 :  -- V-M15
    let s := atWord 0x13#8 0xA403#16 [(3, 0x0100#16)]
    after s = { s with pc := 0x0014#16, status := .faulted, cause := .illegalAddress, faultAddr := 0x0100#16 } := by decide

theorem test_storer_255 :  -- V-M19
    let s := atWord 0x10#8 0xB201#16 [(1, 0x00FF#16), (2, 0x0077#16)]
    after s = { s with pc := 0x0011#16, cycles := 4, mem := s.mem ++ [(255, 0x0077#16)] } := by decide
theorem test_storer_256 :  -- V-M21
    let s := atWord 0x13#8 0xB403#16 [(3, 0x0100#16), (4, 0x1111#16)]
    after s = { s with pc := 0x0014#16, status := .faulted, cause := .illegalAddress, faultAddr := 0x0100#16 } := by decide

theorem test_beqz_taken : (after (atWord 0x12#8 0xC117#16 [])).pc = 0x0017#16 := by decide  -- V-C1
theorem test_beqz_all_bits : (after (atWord 0x12#8 0xC117#16 [(1, 0x0100#16)])).pc = 0x0013#16 := by decide  -- V-C4
theorem test_bgtz_7FFF : (after (atWord 0x14#8 0xD112#16 [(1, 0x7FFF#16)])).pc = 0x0012#16 := by decide  -- V-C9
theorem test_bgtz_8000 : (after (atWord 0x14#8 0xD112#16 [(1, 0x8000#16)])).pc = 0x0015#16 := by decide  -- V-C10
theorem test_jr_whole_register :  -- V-C15
    let s := atWord 0x13#8 0xE300#16 [(3, 0x1234#16)]
    after s = { s with pc := 0x1234#16, cycles := 4 } := by decide
theorem test_jalr_from_255 :  -- V-C17
    let s := atWord 0xFF#8 0xF320#16 []
    after s = { s.setReg 3 0x0100#16 with pc := 0x0020#16, cycles := 4 } := by decide
theorem test_jalr_links : (after (atWord 0x13#8 0xFE18#16 [(14, 0x5555#16)])).reg 14 = 0x0014#16 := by decide  -- V-C19

/-! ## The step: fetch above 255, waiting, reset -/

theorem test_fetch_256 :  -- V-H4
    let s := { State.reset with pc := 0x0100#16, cycles := 4 }
    after s = { s with status := .faulted, cause := .illegalFetch, faultAddr := 0x0100#16 } := by decide
theorem test_load_waits : after (atWord 0x10#8 0x81FF#16 []) = atWord 0x10#8 0x81FF#16 [] := by decide  -- V-M7
theorem test_fetch_word_after_reset :  -- V-M1, as the first instruction after reset
    (after (State.reset.withFetchWord 16 0x7105)).reg 1 = 0x0005#16 := by decide
theorem test_memory_canonical : State.reset.mem.wf = true ∧ Memory.wf [(3, 1), (3, 2)] = false ∧
    Memory.wf [(3, 0x0000#16)] = false ∧ Memory.wf [(256, 1)] = false ∧ Memory.write [(3, 1)] 3 0x0000#16 = [] := by decide

/-! ## The debugger unit -/

theorem test_breakpoint_before_fault :  -- V-F6
    let s := withSlots ((debugged .running .check 0x0013#16).memWrite 0x13#8 0xB403#16) 1 [(0, 0x13#8)]
    after s = { s with mode := .step, phase := .prompt
                       reports := [.breakHit 1 0x0013#16, .trace 0x0013#16 0xB403#16] } := by decide
theorem test_empty_slot_never_matches :  -- V-D5
    after (debugged .running .check 0x0100#16) = debugged .running .execute 0x0100#16 := by decide
theorem test_duplicate_index :  -- V-D4, after Delete(1)
    let s := withSlots (debugged .running .check 0x0020#16) 2 [(1, 0x20#8)]
    (after s).reports.head? = some (.breakHit 2 0x0020#16) := by decide
theorem test_deleted_slot_not_reused_yet :  -- V-D2, Break(0x22)
    let s := withSlots (prompted (.brk (some 0x22))) 2 [(1, 0x21#8)]
    (after s).bp[0] = none ∧ (after s).bp[1] = some 0x21#8 ∧ (after s).bp[2] = some 0x22#8 ∧ (after s).bpN = 3 := by
  decide
theorem test_full_table_reuses_lowest :  -- V-D3, Break(0x30) with slots 3 and 7 deleted
    let s := withSlots (prompted (.brk (some 0x30))) 16
      (((List.range 16).filter (fun i => decide (i ≠ 2 ∧ i ≠ 6))).map (fun i => (i, BitVec.ofNat 8 (0x20 + i))))
    (after s).bp[2] = some 0x30#8 ∧ (after s).bp[6] = none ∧ (after s).bpN = 16 := by decide
theorem test_full_table_rejects :  -- S10
    let s := withSlots (prompted (.brk (some 0x30))) 16 ((List.range 16).map (fun i => (i, BitVec.ofNat 8 (0x20 + i))))
    after s = { s with commands := [], reports := [.breakpointTableFull] } := by decide
theorem test_info :  -- V-D2, Info
    (after (withSlots (prompted .info) 3 [(1, 0x21#8), (2, 0x22#8)])).reports =
      [.breakpoints [(2, 0x21#8), (3, 0x22#8)]] := by decide
theorem test_delete_17 :  -- V-D2, Delete(17)
    (after (prompted (.delete (some 17)))).reports = [.invalidBreakpointReference] := by decide
theorem test_run_restarts :  -- R206: a started program, answered yes
    let s := (prompted (.run true)).setReg 1 7
    after s = { prompted (.run true) with pc := 0x0010#16, mode := .running, phase := .execute, commands := [] } := by
  decide
theorem test_next_needs_confirmation :  -- V-D1, Next(confirm = false)
    let s := { prompted (.next false) with started := false, mode := .stopped }
    after s = { s with commands := [] } := by decide
theorem test_list_range :  -- R214: an explicit inclusive range
    (after ((prompted (.list (.range 0x1F 0x20))).memWrite 0x20#8 0x7342#16)).reports =
      [.memory [(0x1F, 0x0000#16), (0x20, 0x7342#16)]] := by decide

theorem test_list_window_centred :  -- R214: three cells centred on 0x20
    let s := (prompted (.list (.around 0x20))).memWrite 0x20#8 0x7342#16
    (after { s with params := { s.params with listWindow := 3 } }).reports =
      [.memory [(0x1F, 0x0000#16), (0x20, 0x7342#16), (0x21, 0x0000#16)]] := by decide
theorem test_list_range_to_256 :  -- the model's choice, notes/assumptions/14.md: refused whole
    (after (prompted (.list (.range 0xFF 256)))).reports = [.badArgument] := by decide

/-! ## Witnesses: for each statement with hypotheses, concrete values that meet all of a clause's hypotheses together, at
the bounds of its range -/

/-- `FieldsAreNibblesOfTheWord`: the last nibble and the last bit; a word put together from its fields. -/
theorem witness_fields : 3 < 4 ∧ 0x7105#16 = 0x7#4 ++ 0x1#4 ++ 0x0#4 ++ 0x5#4 := by decide

/-- `OpcodeNibbleSelectsTheInstruction`: two words of one opcode. -/
theorem witness_opcode : field 0xF000#16 3 = field 0xFFFF#16 3 := by decide

/-- `ShrIsTheArithmeticShiftRight`: amounts 15 and 16. -/
theorem witness_shr_15 : ((atWord 0x20#8 0x6312#16 [(2, 15)]).reg 2).toNat ≤ 15 := by decide
theorem witness_shr_16 : 15 < ((atWord 0x20#8 0x6312#16 [(2, 16)]).reg 2).toNat := by decide

/-- A run whose queue holds two words, and one whose queue is spent with one word typed. -/
def queued : State := { atWord 0x10#8 0x81FF#16 [] with params := { Params.default with inQueue := [8, 9] } }
def spent : State := { queued with inPos := 2, typed := [5] }

/-- `LoadReadsMemoryOrTheConsole`, its first clause: 254. The others are at 255, with the witnesses that follow. -/
theorem witness_load_254 : 0xFE#8 ≠ 0xFF#8 := by decide

/-- `LoadReadsMemoryOrTheConsole`, `InReadTakesTheQueueThenTheHostsWords`: the last queued word, then the first typed one, then none. -/
theorem witness_inRead_queue : ({ queued with inPos := 1 } : State).params.inQueue[1]? = some 9 := by decide
theorem witness_inRead_typed : spent.params.inQueue.length ≤ spent.inPos ∧ spent.typed = 5 :: [] := by decide
theorem witness_inRead_none :
    ({ spent with typed := [] } : State).params.inQueue.length ≤ ({ spent with typed := [] } : State).inPos ∧
    ({ spent with typed := [] } : State).typed = [] := by decide

/-- `StoreWritesMemoryAndPrintsAt255`, `MemoryReadsWhatWasWritten`: a canonical memory with a word in it, and a store. -/
theorem witness_mem_wf : let s := atWord 0xFF#8 0x9320#16 []
    s.mem.wf = true ∧ s.params.image.wf = true ∧ exec (.store 3 0x20#8) s = .next (after s) := by
  and_intros <;> rfl

/-- `LoadrReadsThroughTheRegister`, `StorerWritesThroughTheRegister`: 255 and 256. -/
theorem witness_indirect_255 : (atWord 0x10#8 0xA301#16 [(1, 0x00FF#16)]).mem.wf = true ∧
    ((atWord 0x10#8 0xA301#16 [(1, 0x00FF#16)]).reg 1).toNat ≤ 255 := by decide
theorem witness_indirect_256 : (atWord 0x10#8 0xA301#16 [(1, 0x0100#16)]).mem.wf = true ∧
    255 < ((atWord 0x10#8 0xA301#16 [(1, 0x0100#16)]).reg 1).toNat := by decide

/-- `MemoriesThatReadAlikeAreEqual`: a memory written in either order. -/
theorem witness_read_alike : Memory.wf (Memory.write (Memory.write [] 0 1) 255 2) = true ∧
    Memory.wf (Memory.write (Memory.write [] 255 2) 0 1) = true ∧
    ∀ a, a < 256 → Memory.read (Memory.write (Memory.write [] 0 1) 255 2) a =
      Memory.read (Memory.write (Memory.write [] 255 2) 0 1) a := by
  and_intros <;> first | rfl | exact fun _ _ => rfl

/-- `JrCopiesTheWholeRegister`: 256 in the register. -/
theorem witness_jr_256 : 255 < ((atWord 0x13#8 0xE300#16 [(3, 0x0100#16)]).reg 3).toNat := by decide

/-- `JalrLinksAndJumps`: the instruction at 255. -/
theorem witness_jalr_255 : (atWord 0xFF#8 0xF320#16 []).pc.toNat ≤ 255 := by decide

/-- `HaltEndsTheRunOrResetsTheMachine`: both clauses. -/
theorem witness_halt_disabled : State.reset.params.debugEn = false := by decide
theorem witness_halt_enabled : (debugged .running .execute 0x0022#16).params.debugEn = true := by decide

/-- `StepRunsTheDecodedInstruction`: both clauses, at 255. -/
theorem witness_step_disabled : (atWord 0xFF#8 0x7301#16 []).status = .active ∧ (atWord 0xFF#8 0x7301#16 []).pc.toNat ≤ 255 ∧
    (atWord 0xFF#8 0x7301#16 []).params.debugEn = false := by decide
theorem witness_step_enabled : (debugged .running .execute 0x00FF#16).status = .active ∧
    (debugged .running .execute 0x00FF#16).pc.toNat ≤ 255 ∧ (debugged .running .execute 0x00FF#16).params.debugEn = true ∧
    (debugged .running .execute 0x00FF#16).phase = .execute := by decide

/-- `FetchAbove255TakesIllegalFetch`: 255 and 256. -/
theorem witness_fetch_255 : (atWord 0xFF#8 0x7301#16 []).pc.toNat ≤ 255 := by decide
theorem witness_fetch_256 : 255 < ({ State.reset with pc := 0x0100#16 } : State).pc.toNat ∧
    ({ State.reset with pc := 0x0100#16 } : State).status = .active ∧
    ({ State.reset with pc := 0x0100#16 } : State).params.debugEn = false := by decide

/-- `IndirectAddressIsValidUpTo255`, its last clause: an active run, 256 in the register. -/
theorem witness_indirect_active : (atWord 0x10#8 0xA301#16 [(1, 0x0100#16)]).status = .active ∧
    255 < ((atWord 0x10#8 0xA301#16 [(1, 0x0100#16)]).reg 1).toNat := by decide

/-- `FaultEntryWritesOnlyTheRecord`: either fault. -/
theorem witness_fault_fetch : let s := { State.reset with pc := 0x0100#16 }
    s.status = .active ∧ step s = .next (after s) ∧ (after s).status = .faulted := by
  and_intros <;> rfl
theorem witness_fault_address : let s := atWord 0x13#8 0xB403#16 [(3, 0x0100#16)]
    s.status = .active ∧ step s = .next (after s) ∧ (after s).status = .faulted := by
  and_intros <;> rfl

/-- `RunEndsOnlyByHaltFaultOrQuit`: an ended run, and a step to each of the three ends. -/
theorem witness_ended : ({ State.reset with status := .quit } : State).status ≠ .active := by decide
theorem witness_end_halted : State.reset.status = .active ∧ step State.reset = .next (after State.reset) ∧
    (after State.reset).status ≠ .active := by
  and_intros <;> first | rfl | decide
theorem witness_end_quit : (prompted .quit).status = .active ∧ step (prompted .quit) = .next (after (prompted .quit)) ∧
    (after (prompted .quit)).status ≠ .active := by
  and_intros <;> first | rfl | decide
theorem witness_end_faulted : let s := { State.reset with pc := 0xFFFF#16 }
    s.status = .active ∧ step s = .next (after s) ∧ (after s).status ≠ .active := by
  and_intros <;> first | rfl | decide

/-- `OnlyLoadFrom255CanWait`: a run that waits and one that does not. -/
theorem witness_waits : (atWord 0x10#8 0x81FF#16 []).status = .active ∧ (atWord 0x10#8 0x81FF#16 []).params.debugEn = false ∧
    (atWord 0x10#8 0x81FF#16 []).instrAtPc = some (.load 1 0xFF#8) ∧ (atWord 0x10#8 0x81FF#16 []).inRead = none := by decide
theorem witness_goes_on : queued.status = .active ∧ queued.params.debugEn = false ∧ step queued = .next (after queued) ∧
    after queued ≠ queued := by
  and_intros <;> first | rfl | decide

/-- `CyclesCountCompletedInstructions`: its clauses, the last with `witness_fetch_256`. -/
theorem witness_cycles_halt : State.reset.status = .active ∧ exec .halt State.reset = .next (after State.reset) := by
  and_intros <;> rfl
theorem witness_cycles_completes : queued.status = .active ∧ exec (.load 1 0xFF#8) queued = .next (after queued) ∧
    (.load 1 0xFF#8 : Instr) ≠ .halt ∧ (after queued).status = .active ∧
    ¬((Instr.load 1 0xFF#8).readsConsole = true ∧ queued.inRead = none) := by
  and_intros <;> first | rfl | decide
theorem witness_cycles_waits : let s := atWord 0x10#8 0x81FF#16 []
    s.status = .active ∧ exec (.load 1 0xFF#8) s = .next (after s) ∧ (Instr.load 1 0xFF#8).readsConsole = true ∧
    s.inRead = none := by
  and_intros <;> rfl
theorem witness_cycles_fault : let s := atWord 0x13#8 0xB403#16 [(3, 0x0100#16)]
    s.status = .active ∧ exec (.storer 4 3) s = .next (after s) ∧ (after s).status = .faulted := by
  and_intros <;> rfl

/-- `PcAfterEachInstruction`: at 255, an instruction that does not wait. -/
theorem witness_pc : let s := atWord 0xFF#8 0xF320#16 []
    s.pc.toNat ≤ 255 ∧ exec (.jalr 3 0x20#8) s = .next (after s) ∧
    ¬((Instr.jalr 3 0x20#8).readsConsole = true ∧ s.inRead = none) := by
  and_intros <;> first | rfl | decide

/-- `OnlyTheDestinationRegisterChanges`. -/
theorem witness_frame_register : exec (.load 1 0xFF#8) queued = .next (after queued) ∧
    (Instr.load 1 0xFF#8).destReg ≠ some 2 ∧ ¬((.load 1 0xFF#8 : Instr) = .halt ∧ queued.params.debugEn = true) := by
  and_intros <;> first | rfl | decide

/-- `OnlyTheStoredWordChanges`: an indirect store to 255, and an instruction that stores nothing. -/
theorem witness_frame_stores : let s := atWord 0x10#8 0xB201#16 [(1, 0x00FF#16)]
    s.mem.wf = true ∧ exec (.storer 2 1) s = .next (after s) ∧ ¬((.storer 2 1 : Instr) = .halt ∧ s.params.debugEn = true) ∧
    (Instr.storer 2 1).storesTo s = some (0xFF#8, 2) ∧ 0xFE#8 ≠ 0xFF#8 := by
  and_intros <;> first | rfl | decide
theorem witness_frame_no_store : queued.mem.wf = true ∧ exec (.load 1 0xFF#8) queued = .next (after queued) ∧
    ¬((.load 1 0xFF#8 : Instr) = .halt ∧ queued.params.debugEn = true) ∧
    (Instr.load 1 0xFF#8).storesTo queued = none := by
  and_intros <;> first | rfl | decide

/-- `InstructionsLeaveControlStateAlone`, `ConsoleIsReachedOnlyThroughAddress255`, `OutputLogOnlyGrows`. -/
theorem witness_console_store : let s := atWord 0x10#8 0x93FF#16 [(3, 0x000F#16)]
    s.mem.wf = true ∧ exec (.store 3 0xFF#8) s = .next (after s) ∧ step s = .next (after s) ∧
    (Instr.store 3 0xFF#8).readsConsole = false := by
  and_intros <;> rfl

/-- `CyclesGrowBetweenResets`, `CyclesCannotBeObserved`. -/
theorem witness_step_next : step queued = .next (after queued) := by
  rfl

/-- `DebuggerDoesNotChangeInstructions`. -/
theorem witness_not_halt : (.load 1 0xFF#8 : Instr) ≠ .halt ∧ exec (.load 1 0xFF#8) queued = .next (after queued) := by
  and_intros <;> first | rfl | decide

/-- `StoreIsSeenByTheNextFetch`: V-M10. -/
theorem witness_self_modifying : let s := atWord 0x10#8 0x9111#16 []
    s.mem.wf = true ∧ s.status = .active ∧ s.params.debugEn = false ∧ s.instrAtPc = some (.store 1 0x11#8) ∧
    (0x11#8).toNat = s.pc.toNat + 1 := by decide

/-- `BreakpointCheckForcesStepMode`: two slots that match, the lesser announced; and no slot that matches. -/
theorem witness_check_match : let s := withSlots (debugged .running .check 0x0020#16) 2 [(0, 0x20#8), (1, 0x20#8)]
    s.status = .active ∧ s.params.debugEn = true ∧ s.phase = .check ∧ s.bp[0] = some 0x20#8 ∧
    (0x20#8).toNat = s.pc.toNat := by decide
theorem witness_check_no_match : let s := debugged .running .check 0x0100#16
    s.status = .active ∧ s.params.debugEn = true ∧ s.phase = .check ∧ ∀ i (h : i < 16), s.bp[i] = none := by decide

/-- `TraceIsShownWhenVerboseOrStepping`: traced, and not. -/
theorem witness_traced : let s := { debugged .running .check 0x00FF#16 with verbose := true }
    s.status = .active ∧ s.params.debugEn = true ∧ s.phase = .check ∧ step s = .next (after s) ∧ s.verbose = true ∧
    s.pc.toNat ≤ 255 := by
  and_intros <;> rfl
theorem witness_not_traced : let s := debugged .running .check 0x0100#16
    s.status = .active ∧ s.params.debugEn = true ∧ s.phase = .check ∧ step s = .next (after s) ∧ s.verbose = false ∧
    (after s).mode ≠ .step := by
  and_intros <;> first | rfl | decide

/-- `RunStartsOrRestartsTheProgram`, `StepContinueAndNextResume`: a started program and one that is not. -/
theorem witness_started : (debugged .step .prompt 0x0020#16).started = true := by decide
theorem witness_not_started : (debugged .stopped .prompt 0x0010#16).started = false := by decide

/-- `BreakFillsSlotsInOrderThenReuses`: 256; 255 with one slot left; a full table with its last slot deleted; a full one. -/
theorem witness_break_256 : 255 < 256 := by decide
theorem witness_break_last : (withSlots State.reset 15 []).bpN < 16 ∧ 255 ≤ 255 := by decide
theorem witness_break_reuse :
    let s := withSlots State.reset 16 ((List.range 15).map (fun i => (i, BitVec.ofNat 8 i)))
    15 < 16 ∧ 16 ≤ s.bpN ∧ 255 ≤ 255 ∧ s.bp[15] = none ∧ ∀ j (h' : j < 16), j < 15 → s.bp[j] ≠ none := by decide
theorem witness_break_full :
    let s := withSlots State.reset 16 ((List.range 16).map (fun i => (i, BitVec.ofNat 8 i)))
    16 ≤ s.bpN ∧ 255 ≤ 255 ∧ ∀ i (h : i < 16), s.bp[i] ≠ none := by decide

/-- `DeleteEmptiesTheSlot`: 0 and 17; slot 16, active and `EMPTY`. -/
theorem witness_delete_out : (0 < 1 ∨ 16 < 0) ∧ (17 < 1 ∨ 16 < 17) := by decide
theorem witness_delete_active : (16 = 15 + 1) ∧ (withSlots State.reset 16 [(15, 0x20#8)]).bp[15] ≠ none := by decide
theorem witness_delete_empty : (16 = 15 + 1) ∧ State.reset.bp[15] = none := by decide

/-- `InspectionAndBadCommandsChangeNothing`: a bad argument (the other five are commands). -/
theorem witness_bad_command : Command.wellFormed (.delete (some 17)) = false := by decide

/-- `InspectionShowsTheState`: the whole range of memory, and one cell. -/
theorem witness_list_range : (0 ≤ 255 ∧ 255 ≤ 255) ∧ (255 ≤ 255 ∧ 255 ≤ 255) := by decide

/-- `CommandsAreTakenOnlyAtThePrompt`: a command taken; one pending at the prompt; none pending. -/
theorem witness_command_taken : step (prompted .info) = .next (after (prompted .info)) ∧
    (after (prompted .info)).commands ≠ (prompted .info).commands := by
  and_intros <;> first | rfl | decide
theorem witness_asksHost : (prompted .info).asksHost ∧ (prompted .info).commands = .info :: [] :=
  ⟨⟨rfl, rfl, rfl, by decide⟩, rfl⟩
theorem witness_asksHost_silent : (debugged .step .prompt 0x0020#16).asksHost ∧
    (debugged .step .prompt 0x0020#16).commands = [] := ⟨⟨rfl, rfl, rfl, by decide⟩, rfl⟩

/-- `HostChangesTheMachineOnlyByReset`. -/
theorem witness_interpret : interpret (.run true) (prompted .info) = { (prompted .info).machineReset with
    mode := .running, phase := .execute } := by decide

/-- `ModeChangesOnlyAsTheTableSays`: a change to each of the three modes. -/
theorem witness_mode_step : let s := withSlots (debugged .running .check 0x0020#16) 1 [(0, 0x20#8)]
    step s = .next (after s) ∧ (after s).mode ≠ s.mode := by
  and_intros <;> first | rfl | decide
theorem witness_mode_running : step (prompted .cont) = .next (after (prompted .cont)) ∧
    (after (prompted .cont)).mode ≠ (prompted .cont).mode := by
  and_intros <;> first | rfl | decide
theorem witness_mode_stopped : step (debugged .running .execute 0x0022#16) = .next (after (debugged .running .execute 0x0022#16)) ∧
    (after (debugged .running .execute 0x0022#16)).mode ≠ (debugged .running .execute 0x0022#16).mode := by
  and_intros <;> first | rfl | decide

/-- `RunningUnderTheDebuggerIsFreeRun`: a breakpoint elsewhere, an instruction other than `HALT` at 255. -/
theorem witness_freeRun :
    let s := withSlots ((debugged .running .check 0x00FF#16).memWrite 0xFF#8 0x7301#16) 1 [(0, 0xFE#8)]
    s.status = .active ∧ s.params.debugEn = true ∧ s.phase = .check ∧ s.mode = .running ∧ s.verbose = false ∧
    (∀ i (h : i < 16), s.bp[i] ≠ some 0xFF#8) ∧ s.pc.toNat = 255 ∧ s.instrAtPc ≠ some .halt := by decide

/-- `EveryStepKeepsTheInvariant`, `ExitStatusTellsHowTheRunEnded`: the reset state meets the invariant, and it takes a step. -/
theorem witness_invariant : State.reset.Inv ∧ step State.reset = .next (after State.reset) := by
  refine ⟨⟨rfl, rfl, by decide, by decide, by decide, by decide, fun h => absurd rfl h, by decide, by decide, fun _ => ?_,
    fun h => Bool.noConfusion h, by decide, by decide, by decide⟩, rfl⟩
  exact ⟨rfl, rfl, rfl, rfl, rfl, rfl⟩

/-- `ResetMeetsTheInvariant`: an image with a word in it. -/
theorem witness_image : ({ Params.default with image := [(16, 0x7105#16)] } : Params).image.wf = true := by decide

/-- `ListShowsAWindowCentredOnTheAddress`: windows of size 3 and 2 at the first and the last address where they lie whole
in memory, and one of size 3 at 0 and at 255. -/
theorem witness_window_odd : let s := { State.reset with params := { Params.default with listWindow := 3 } }
    s.params.listWindow % 2 = 1 ∧ (s.params.listWindow / 2 ≤ 1 ∧ 1 + s.params.listWindow / 2 ≤ 255) ∧
    (s.params.listWindow / 2 ≤ 254 ∧ 254 + s.params.listWindow / 2 ≤ 255) ∧ 0 < s.params.listWindow := by decide
theorem witness_window_even : let s := { State.reset with params := { Params.default with listWindow := 2 } }
    s.params.listWindow % 2 = 0 ∧ (s.params.listWindow / 2 ≤ 1 ∧ 1 + s.params.listWindow / 2 ≤ 255) ∧
    (s.params.listWindow / 2 ≤ 254 ∧ 254 + s.params.listWindow / 2 ≤ 255) ∧ 0 < s.params.listWindow := by decide
theorem witness_window_here : State.reset.pc.toNat = 16 ∧ 16 ≤ 255 ∧ 0 ≤ 255 ∧ 255 ≤ 255 := by decide

end Sys2Proof.Tests
end

/-! PROOFS. How each instruction leaves `pc` (spec/10_state.md R25). -/

namespace Sys2Proof.Machine

section pc
variable {s t : State}

/-- The increment does not wrap where an instruction can be fetched (R101, R102). -/
theorem State.advance_pc_toNat (hp : s.pc.toNat ≤ 255) : s.advance.pc.toNat = s.pc.toNat + 1 := by
  rw [State.advance_pc]
  bv_omega

theorem complete_pc {u : State} (h : complete u = .next t) : t.pc = u.pc := by
  obtain rfl := Host.Outcome.next.inj h
  exact State.retire_pc u

theorem isZero_iff (v : Word) : isZero v = true ↔ v = 0x0000#16 := decide_eq_true_iff

theorem isPositive_iff (v : Word) : isPositive v = true ↔ 0 < v.toNat ∧ v.toNat < 32768 := by
  simp [isPositive]

theorem execHalt_pc (h : execHalt s = .next t) :
    t.pc = if s.params.debugEn then Config.entry else s.advance.pc := by
  unfold execHalt at h
  split at h
  · next hd => cases h; rw [if_pos hd, State.haltUnderDebugger_pc]
  · next hd => cases h; rw [if_neg hd]

theorem aluOp_pc {f : Word → Word → Word} {rd rs rt : Reg} (h : aluOp f rd rs rt s = .next t) :
    t.pc = s.advance.pc := by
  rw [complete_pc h, State.setReg_pc]

theorem execLoadi_pc {rd : Reg} {addr : Addr} (h : execLoadi rd addr s = .next t) : t.pc = s.advance.pc := by
  rw [complete_pc h, State.setReg_pc]

theorem branchIf_pc {c : Bool} {addr : Addr} (h : branchIf c addr s = .next t) :
    t.pc = if c then zext16 addr else s.advance.pc := by
  rw [branchIf_eq] at h
  cases h
  rfl

theorem execJr_pc {rd : Reg} (h : execJr rd s = .next t) : t.pc = s.reg rd := by
  rw [complete_pc h, State.setPc_pc]

theorem execJalr_pc {rd : Reg} {addr : Addr} (h : execJalr rd addr s = .next t) : t.pc = zext16 addr := by
  rw [complete_pc h, State.setPc_pc, immediate]

/-- A `LOAD` that does not wait: from the console (R142) or from memory. -/
theorem execLoad_pc {rd : Reg} {addr : Addr} (h : execLoad rd addr s = .next t)
    (hw : ¬((Instr.load rd addr).readsConsole = true ∧ s.inRead = none)) : t.pc = s.advance.pc := by
  unfold execLoad at h
  split at h
  · next ha =>
    have hc : (Instr.load rd addr).readsConsole = true := decide_eq_true ha
    split at h
    · next w s' hr => rw [complete_pc h, State.setReg_pc, State.inRead_eq hr]
    · next hr =>
      rw [State.inRead_advance, Option.map_eq_none_iff] at hr
      exact absurd ⟨hc, hr⟩ hw
  · rw [complete_pc h, State.setReg_pc]

theorem execStore_pc {rd : Reg} {addr : Addr} (h : execStore rd addr s = .next t) : t.pc = s.advance.pc := by
  rw [complete_pc h, State.printStored_eq, State.memWrite_pc]

/-- `LOADR` moves on past the instruction whether it completes or faults (R102, R183). -/
theorem execLoadr_pc {rd rt : Reg} (h : execLoadr rd rt s = .next t) : t.pc = s.advance.pc := by
  unfold execLoadr at h
  split at h
  · rw [complete_pc h, State.setReg_pc]
  · cases h; rw [State.raiseFault_pc]

/-- `STORER` moves on past the instruction whether it completes or faults (R102, R183). -/
theorem execStorer_pc {rd rt : Reg} (h : execStorer rd rt s = .next t) : t.pc = s.advance.pc := by
  unfold execStorer at h
  split at h
  · rw [complete_pc h, State.memWrite_pc]
  · cases h; rw [State.raiseFault_pc]

end pc

/-- Settles O32, by cases on the instruction: the rows of R25's table that transfer control each by its own rule, every
other row by the increment. -/
theorem pcAfterEachInstruction : Obligations.PcAfterEachInstruction := by
  unfold Obligations.PcAfterEachInstruction
  intro i s t hp h hw
  have hnext : t.pc = s.advance.pc → t.pc.toNat = s.pc.toNat + 1 :=
    fun hpc => hpc ▸ State.advance_pc_toNat hp
  cases i with
  | halt =>
    rw [execHalt_pc h, apply_ite BitVec.toNat, State.advance_pc_toNat hp]
    rfl
  | beqz rd addr =>
    rw [branchIf_pc h, apply_ite BitVec.toNat, State.advance_pc_toNat hp, zext16_toNat]
    simp only [isZero_iff, Instr.pcAfter]
  | bgtz rd addr =>
    rw [branchIf_pc h, apply_ite BitVec.toNat, State.advance_pc_toNat hp, zext16_toNat]
    simp only [isPositive_iff, Instr.pcAfter]
  | jr rd => rw [execJr_pc h, Instr.pcAfter]
  | jalr rd addr => rw [execJalr_pc h, zext16_toNat, Instr.pcAfter]
  | load rd addr => exact hnext (execLoad_pc h hw)
  | store rd addr => exact hnext (execStore_pc h)
  | loadr rd rt => exact hnext (execLoadr_pc h)
  | storer rd rt => exact hnext (execStorer_pc h)
  | loadi rd addr => exact hnext (execLoadi_pc h)
  | add | sub | and | xor | shl | shr => exact hnext (aluOp_pc h)

end Sys2Proof.Machine

/-! PROOFS. The fields of a word, and the instruction a word is (spec/30_encoding.md R81 to R87). -/

namespace Sys2Proof

/-- Bit `k` of nibble `i` is bit `4 * i + k` of the word (R82). -/
theorem field_getLsbD (w : Word) {i k : Nat} (hk : k < 4) : (field w i).getLsbD k = w.getLsbD (4 * i + k) := by
  rw [field, BitVec.getLsbD_extractLsb', decide_eq_true hk, Bool.true_and]

/-- `addr = rs * 16 + rt` (R84). -/
theorem addrField_toNat (w : Word) : (addrField w).toNat = (field w 1).toNat * 16 + (field w 0).toNat := by
  rw [addrField, BitVec.extractLsb'_toNat, Nat.shiftRight_zero, field_toNat, field_toNat]
  omega

/-- Each row of the opcode map yields the instruction of its own index (R85). -/
theorem opcodeMap_get_opcode (i : Fin 16) (w : Word) : (opcodeMap.get i w).opcode = BitVec.ofFin i := by
  fin_cases i <;> rfl

/-- The opcode nibble alone names the instruction (R85, R86). -/
theorem decode_opcode (w : Word) : (decode w).opcode = field w 3 :=
  opcodeMap_get_opcode (regField w 3) w

/-- `HALT` is opcode 0 and no other (R85, R87). -/
theorem decode_eq_halt_iff (w : Word) : decode w = .halt ↔ field w 3 = 0x0#4 := by
  constructor
  · intro h
    rw [← decode_opcode, h, Instr.opcode]
  · intro h
    exact (decode_of_opcode h).trans rfl

theorem field_op_eq_zero_iff (w : Word) : field w 3 = 0x0#4 ↔ w.toNat ≤ 0x0FFF := by
  rw [← BitVec.toNat_inj, field_toNat, BitVec.toNat_ofNat]
  have := w.isLt
  omega

/-- `LOADR` and `STORER` do not mention `rs` (R87). -/
theorem decode_readRdRt_ignores_rs {op : BitVec 4} {f : Reg → Reg → Instr}
    (h : opcodeMap.get op.toFin = readRdRt f) (rd rt x y : BitVec 4) :
    decode (format1 op rd x rt) = decode (format1 op rd y rt) :=
  (decode_readRdRt (rd := rd.toFin) (rt := rt.toFin) h).trans (decode_readRdRt h).symm

/-- The low byte of a `JR` word is the two nibbles `JR` does not mention (R87). -/
theorem decode_jr_format2 (rd : BitVec 4) (x : Addr) : decode (format2 0xE#4 rd x) = .jr rd.toFin := by
  rw [decode_format2]
  show Instr.jr (regField _ 2) = _
  rw [regField, field_format2_rd]

/-- Two zero nibbles are a zero byte. -/
theorem format1_zero_zero (op rd : BitVec 4) : format1 op rd 0x0#4 0x0#4 = format2 op rd 0x00#8 := by
  apply BitVec.eq_of_toNat_eq
  simp [format1_toNat, format2_toNat]

/-- Settles O3: each field by the bits it takes from the word, and a word put together from its fields by `format1`. -/
theorem fieldsAreNibblesOfTheWord : Obligations.FieldsAreNibblesOfTheWord := by
  unfold Obligations.FieldsAreNibblesOfTheWord
  intro w
  refine ⟨fun i _ => field_toNat w i, fun i k _ hk => field_getLsbD w hk, ?_, addrField_toNat w⟩
  rintro op rd rs rt rfl
  exact ⟨field_format1_op op rd rs rt, field_format1_rd op rd rs rt, field_format1_rs op rd rs rt,
    field_format1_rt op rd rs rt⟩

/-- Settles O5: decoding reads the opcode and the fields its row names, so words that differ elsewhere decode alike. -/
theorem ignoredFieldsHaveNoEffect : Obligations.IgnoredFieldsHaveNoEffect := by
  unfold Obligations.IgnoredFieldsHaveNoEffect
  have hloadr := decode_readRdRt_ignores_rs (op := 0xA#4) (f := .loadr) rfl
  have hstorer := decode_readRdRt_ignores_rs (op := 0xB#4) (f := .storer) rfl
  have hjr (rd : BitVec 4) (x y : Addr) : decode (format2 0xE#4 rd x) = decode (format2 0xE#4 rd y) :=
    (decode_jr_format2 rd x).trans (decode_jr_format2 rd y).symm
  refine ⟨fun w => (decode_eq_halt_iff w).trans (field_op_eq_zero_iff w), hloadr, hstorer, hjr,
    hloadr 0x3#4 0x4#4 0xF#4 0x0#4, hjr 0x5#4 0xAB#8 0x00#8, rfl, fun _ _ => rfl, fun _ _ => rfl, ?_⟩
  exact fun rd => format1_zero_zero 0xE#4 (nibble rd)

end Sys2Proof

/-! PROOFS. `HALT`, the fetch above 255 and the cycle count (spec/40_step_halt.md R101, R104, R106, R110). -/

namespace Sys2Proof.Machine

section halt
variable {s : State}

/-- With the debugger disabled `HALT` ends the run (R110). -/
theorem exec_halt_of_disabled (hd : s.params.debugEn = false) :
    exec .halt s = .next { s.advance with status := .halted } := by
  rw [exec, execHalt, if_neg (ne_true_of_eq_false hd)]

/-- Under the debugger `HALT` resets the machine (R110). -/
theorem exec_halt_of_enabled (hd : s.params.debugEn = true) :
    exec .halt s = .next s.advance.haltUnderDebugger := by
  rw [exec, execHalt, if_pos hd]

end halt

/-- An opcode nibble of 0 is `HALT`, whatever the other 12 bits (R87, R110). -/
theorem decode_zero_append (x : BitVec 12) : decode (0x0#4 ++ x) = .halt := by
  have hx : (0x0#4 ++ x).toNat = x.toNat := by
    rw [BitVec.toNat_append, BitVec.toNat_zero, Nat.zero_shiftLeft, Nat.zero_or]
  rw [decode_eq_halt_iff, field_op_eq_zero_iff, hx]
  exact Nat.le_of_lt_succ x.isLt

/-- Settles O22: each form of `HALT` by its own equation. -/
theorem haltEndsTheRunOrResetsTheMachine : Obligations.HaltEndsTheRunOrResetsTheMachine := by
  unfold Obligations.HaltEndsTheRunOrResetsTheMachine
  exact fun x s => ⟨decode_zero_append x, exec_halt_of_disabled, exec_halt_of_enabled⟩

/-- Settles O24: below 256 the fetch is a read of memory; above, the engine takes `IllegalFetch`, and with the debugger
disabled a step is the engine's. -/
theorem fetchAbove255TakesIllegalFetch : Obligations.FetchAbove255TakesIllegalFetch := by
  unfold Obligations.FetchAbove255TakesIllegalFetch
  refine fun s => ⟨State.fetch_of_le, fun hpc => ⟨State.fetch_of_gt hpc, engineStep_of_gt hpc, fun hs hd => ?_⟩⟩
  exact (step_freeRun hs hd).trans (engineStep_of_gt hpc)

section cycles
variable {i : Instr} {s t : State}

/-- `HALT` leaves the counter, or resets it under the debugger (R104, R110). -/
theorem exec_halt_cycles (h : exec .halt s = .next t) : t.cycles = if s.params.debugEn then 0 else s.cycles := by
  cases hd : s.params.debugEn with
  | false =>
    obtain rfl := Host.Outcome.next.inj ((exec_halt_of_disabled hd).symm.trans h)
    rfl
  | true =>
    obtain rfl := Host.Outcome.next.inj ((exec_halt_of_enabled hd).symm.trans h)
    rfl

/-- A read of the console waits where no word is supplied: no state changes (R106). -/
theorem exec_of_waits (hc : i.readsConsole = true) (hr : s.inRead = none) : exec i s = .next s := by
  obtain ⟨rd, rfl⟩ := (readsConsole_iff i).mp hc
  rw [exec, execLoad, directAddress, if_pos (show 0xFF#8 = Config.ioAddr from rfl), State.inRead_advance, hr]
  rfl

/-- An instruction other than `HALT` that neither waits nor faults completes (R104, R106). -/
theorem completes_of_exec (h : exec i s = .next t) (hne : i ≠ .halt) (ht : t.status = .active)
    (hw : ¬(i.readsConsole = true ∧ s.inRead = none)) : Completes i s t := by
  rcases exec_cases i s with ⟨hi, _⟩ | ⟨hi, _⟩ | ⟨hi, hr, _⟩ | ⟨rd, rt, _, _, he⟩ | ⟨u, hc, he⟩
  · exact absurd hi hne
  · exact absurd hi hne
  · exact absurd ⟨(readsConsole_iff i).mpr hi, hr⟩ hw
  · obtain rfl := Host.Outcome.next.inj (he.symm.trans h)
    cases ht
  · obtain rfl := Host.Outcome.next.inj (he.symm.trans h)
    exact hc

/-- The one fault that an instruction takes is `IllegalAddress`, after the increment of `pc` (R146, R183). -/
theorem eq_raiseFault_of_exec (h : exec i s = .next t) (hs : s.status = .active) (ht : t.status = .faulted) :
    ∃ a, t = s.advance.raiseFault .illegalAddress a := by
  have hst : t.status ≠ s.status := by rw [hs, ht]; decide
  rcases exec_cases i s with ⟨_, _, he⟩ | ⟨_, _, he⟩ | ⟨_, _, he⟩ | ⟨rd, rt, _, _, he⟩ | ⟨u, hc, he⟩
  all_goals obtain rfl := Host.Outcome.next.inj (he.symm.trans h)
  · cases ht
  · exact absurd rfl hst
  · exact absurd rfl hst
  · exact ⟨_, rfl⟩
  · exact absurd hc.status_eq hst

/-- A fetch that faults counts nothing (R101, R104). -/
theorem engineStep_cycles_of_gt (hpc : 255 < s.pc.toNat) (h : engineStep s = .next t) : t.cycles = s.cycles := by
  obtain rfl := Host.Outcome.next.inj ((engineStep_of_gt hpc).symm.trans h)
  exact State.raiseFault_cycles s _ _

end cycles

/-- Settles O31, one lemma for each way an instruction can end: `HALT`, a completion, a wait, a fault and a fetch that
faults. -/
theorem cyclesCountCompletedInstructions : Obligations.CyclesCountCompletedInstructions := by
  unfold Obligations.CyclesCountCompletedInstructions
  intro i s t hs h
  refine ⟨?halt, ?completes, ?waits, ?faults, fun _ => engineStep_cycles_of_gt⟩
  case halt =>
    rintro rfl
    exact exec_halt_cycles h
  case completes =>
    exact fun hne ht hw => (completes_of_exec h hne ht hw).cycles_eq
  case waits =>
    intro hc hr
    obtain rfl := Host.Outcome.next.inj ((exec_of_waits hc hr).symm.trans h)
    rfl
  case faults =>
    intro ht
    obtain ⟨a, rfl⟩ := eq_raiseFault_of_exec h hs ht
    rw [State.raiseFault_cycles, State.advance_cycles]

end Sys2Proof.Machine

/-! PROOFS. What opcodes 1 to 6 compute (spec/41_alu.md R121 to R126). -/

namespace Sys2Proof.Machine

section results
variable (a b v : Word) {n : Word}

/-- The 17th bit of the sum is lost (R121). -/
theorem add_eq_ofNat_mod : a + b = BitVec.ofNat 16 ((a.toNat + b.toNat) % 65536) :=
  BitVec.eq_of_toNat_eq (by simp)

/-- The borrow adds 65536 where the subtrahend is the larger (R122). -/
theorem sub_eq_ofNat_ite :
    a - b = BitVec.ofNat 16
      (if b.toNat ≤ a.toNat then a.toNat - b.toNat else a.toNat + 65536 - b.toNat) := by
  apply BitVec.eq_of_toNat_eq
  rw [BitVec.toNat_sub, BitVec.toNat_ofNat]
  split <;> omega

/-- From 16 on the power of two is itself a multiple of 65536 (R125). -/
theorem shiftLeft_toNat : (shiftLeft v n).toNat = v.toNat * 2 ^ n.toNat % 65536 := by
  unfold shiftLeft
  split
  · rw [BitVec.toNat_shiftLeft, Nat.shiftLeft_eq]
  · next hn =>
    have hdvd : 65536 ∣ 2 ^ n.toNat := Nat.pow_dvd_pow 2 (m := 16) (by omega)
    exact (Nat.mod_eq_zero_of_dvd (Dvd.dvd.mul_left hdvd _)).symm

theorem shiftLeft_of_ge (hn : 16 ≤ n.toNat) : shiftLeft v n = 0x0000#16 :=
  if_neg (by omega)

theorem shrTmp_toNat (hn : n.toNat ≤ 15) : (shrTmp v n).toNat = v.toNat / 2 ^ n.toNat := by
  rw [shrTmp, if_pos hn, BitVec.toNat_ushiftRight, Nat.shiftRight_eq_div_pow]

theorem shrTmp_of_gt (hn : 15 < n.toNat) : shrTmp v n = 0x0000#16 :=
  if_neg (Nat.not_le.mpr hn)

theorem shrMask_toNat (hn : n.toNat ≤ 15) :
    (shrMask n).toNat = 65535 * 2 ^ (16 - n.toNat) % 65536 := by
  rw [shrMask, if_pos hn, BitVec.toNat_ofNat]

theorem shrMask_of_gt (hn : 15 < n.toNat) : shrMask n = 0xFFFF#16 :=
  if_neg (Nat.not_le.mpr hn)

/-- The test of R126's last step, written with the number it compares. -/
theorem shiftRightArith_eq_ite :
    shiftRightArith v n = if 32767 < v.toNat then shrTmp v n ||| shrMask n else shrTmp v n := by
  simp only [shiftRightArith, isNegative, decide_eq_true_iff]

/-- The arithmetic shift is the floor of the signed quotient, for every amount (R126). -/
theorem signed_shiftRightArith : signed (shiftRightArith v n) = signed v / 2 ^ n.toNat := by
  rw [shiftRightArith_eq_sshiftRight, signed_eq_toInt, signed_eq_toInt, BitVec.toInt_sshiftRight,
    Int.shiftRight_eq_div_pow, Nat.cast_pow, Nat.cast_ofNat]

end results

/-- Settles O10: the pseudocode's `tmp` and `mask` are the model's, and the floor form is the arithmetic shift of the bit
vector. -/
theorem shrIsTheArithmeticShiftRight : Obligations.ShrIsTheArithmeticShiftRight := by
  unfold Obligations.ShrIsTheArithmeticShiftRight
  intro rd rs rt s
  refine ⟨decode_readRegs rfl, shrTmp (s.reg rs) (s.reg rt), shrMask (s.reg rt), shiftRightArith (s.reg rs) (s.reg rt),
    ?small, ?large, shiftRightArith_eq_ite _, signed_shiftRightArith _, aluOp_eq shiftRightArith rd rs rt s⟩
  case small => exact fun hn => ⟨shrTmp_toNat _ hn, shrMask_toNat hn⟩
  case large => exact fun hn => ⟨shrTmp_of_gt _ hn, shrMask_of_gt hn⟩

/-- Settles O7: the sum and the difference of bit vectors are those of R121 and R122. -/
theorem addAndSubWriteTheWrappedResult : Obligations.AddAndSubWriteTheWrappedResult := by
  unfold Obligations.AddAndSubWriteTheWrappedResult
  intro rd rs rt s
  rw [← add_eq_ofNat_mod, ← sub_eq_ofNat_ite]
  exact ⟨decode_readRegs rfl, aluOp_eq _ rd rs rt s, decode_readRegs rfl, aluOp_eq _ rd rs rt s⟩

/-- Settles O8: the bits of the two bitwise results. -/
theorem andAndXorWriteTheBitwiseResult : Obligations.AndAndXorWriteTheBitwiseResult := by
  unfold Obligations.AndAndXorWriteTheBitwiseResult
  intro rd rs rt s
  exact ⟨decode_readRegs rfl, ⟨s.reg rs &&& s.reg rt, fun _ _ => BitVec.getLsbD_and, aluOp_eq _ rd rs rt s⟩,
    decode_readRegs rfl, ⟨s.reg rs ^^^ s.reg rt, fun _ _ => BitVec.getLsbD_xor, aluOp_eq _ rd rs rt s⟩⟩

/-- Settles O9: the shift's value for every amount, and 0 from 16 on. -/
theorem shlMultipliesByThePowerOfTwo : Obligations.ShlMultipliesByThePowerOfTwo := by
  unfold Obligations.ShlMultipliesByThePowerOfTwo
  intro rd rs rt s
  exact ⟨decode_readRegs rfl, shiftLeft (s.reg rs) (s.reg rt), shiftLeft_toNat _, shiftLeft_of_ge _,
    aluOp_eq shiftLeft rd rs rt s⟩

end Sys2Proof.Machine

/-! PROOFS. Opcodes 7 to 11 and the indirect address (spec/42_load_store.md R141 to R146). -/

namespace Sys2Proof.Machine

section access
variable {s : State} {rd rt : Reg} {i : Instr}

/-- The zero extension of R10 keeps the number. -/
theorem zext16_eq_ofNat (a : Addr) : zext16 a = BitVec.ofNat 16 a.toNat := by
  rw [zext16_eq_iff, BitVec.toNat_ofNat]
  omega

/-- At a valid address word the memory access is at that number, all 16 bits of it (R140, R146). -/
theorem State.memRead_toAddr {a : Word} (ha : a.toNat ≤ 255) : s.memRead (toAddr a) = s.mem.read a.toNat := by
  rw [State.memRead, toAddr_toNat ha]

theorem exec_loadi_eq (addr : Addr) :
    exec (.loadi rd addr) s = .next { s with
      regs := s.regs.set rd.val (zext16 addr), pc := s.pc + 1#16, cycles := s.cycles + 1 } := rfl

theorem State.memRead_memWrite_same (hm : s.mem.wf = true) (a : Addr) (v : Word) : (s.memWrite a v).memRead a = v := by
  rw [State.memRead, State.memWrite_mem, Memory.read_write hm, if_pos rfl]

/-- The word printed, read back from memory, is the word just stored (R143). -/
theorem State.printStored_memWrite (hm : s.mem.wf = true) (a : Addr) (v : Word) :
    (s.memWrite a v).printStored a = { s with
      mem := s.mem.write a.toNat v, outLog := if a = Config.ioAddr then s.outLog ++ [v] else s.outLog } := by
  unfold State.printStored
  split
  · next ha =>
    rw [← ha, State.memRead_memWrite_same hm]
    rfl
  · rfl

theorem exec_store_eq (hm : s.mem.wf = true) (addr : Addr) :
    exec (.store rd addr) s = .next { s with
      mem := s.mem.write addr.toNat (s.reg rd)
      outLog := if addr = 0xFF#8 then s.outLog ++ [s.reg rd] else s.outLog
      pc := s.pc + 1#16, cycles := s.cycles + 1 } := by
  rw [exec, execStore, directAddress, State.printStored_memWrite (s := s.advance) hm]
  rfl

theorem exec_loadr_of_le (ha : (s.reg rt).toNat ≤ 255) :
    exec (.loadr rd rt) s = .next { s with
      regs := s.regs.set rd.val (s.mem.read (s.reg rt).toNat), pc := s.pc + 1#16, cycles := s.cycles + 1 } := by
  rw [exec, execLoadr, State.indirectAddress_advance, State.indirectAddress_of_le ha, ← State.memRead_toAddr ha]
  rfl

theorem exec_storer_of_le (ha : (s.reg rt).toNat ≤ 255) :
    exec (.storer rd rt) s = .next { s with
      mem := s.mem.write (s.reg rt).toNat (s.reg rd), pc := s.pc + 1#16, cycles := s.cycles + 1 } := by
  rw [exec, execStorer, State.indirectAddress_advance, State.indirectAddress_of_le ha, ← toAddr_toNat ha]
  rfl

/-- Both indirect instructions fault alike on an invalid address, before they write (R144 to R146). -/
theorem exec_indirect_of_gt (hi : i = .loadr rd rt ∨ i = .storer rd rt) (ha : 255 < (s.reg rt).toNat) :
    exec i s = .next (s.advance.raiseFault .illegalAddress (s.reg rt)) := by
  obtain rfl | rfl := hi
  · rw [exec, execLoadr, State.indirectAddress_advance, State.indirectAddress_of_gt ha]
  · rw [exec, execStorer, State.indirectAddress_advance, State.indirectAddress_of_gt ha]

/-- On a valid address both complete: the run's status stays and `pc` moves on (R102, R146). -/
theorem exec_indirect_of_le (hi : i = .loadr rd rt ∨ i = .storer rd rt) (ha : (s.reg rt).toNat ≤ 255) :
    ∃ t, exec i s = .next t ∧ t.pc = s.pc + 1#16 ∧ t.status = s.status := by
  obtain rfl | rfl := hi
  · exact ⟨_, exec_loadr_of_le ha, rfl, rfl⟩
  · exact ⟨_, exec_storer_of_le ha, rfl, rfl⟩

end access

/-- Settles O11: the immediate is the zero-extended byte, for 255 as for any other. -/
theorem loadiWritesTheZeroExtendedImmediate : Obligations.LoadiWritesTheZeroExtendedImmediate := by
  unfold Obligations.LoadiWritesTheZeroExtendedImmediate
  intro rd addr s
  rw [← zext16_eq_ofNat]
  exact ⟨decode_readRdAddr rfl, exec_loadi_eq addr⟩

/-- Settles O14: the memory is the one written, and the word printed is the one stored. -/
theorem storeWritesMemoryAndPrintsAt255 : Obligations.StoreWritesMemoryAndPrintsAt255 := by
  unfold Obligations.StoreWritesMemoryAndPrintsAt255
  exact fun rd addr s hm => ⟨decode_readRdAddr rfl, _, exec_store_eq hm addr, Memory.read_write hm _ _⟩

/-- Settles O15: a valid address and an invalid one, each by its own equation. -/
theorem loadrReadsThroughTheRegister : Obligations.LoadrReadsThroughTheRegister := by
  unfold Obligations.LoadrReadsThroughTheRegister
  exact fun rd rt x s => ⟨decode_readRdRt rfl, exec_loadr_of_le, exec_indirect_of_gt (.inl rfl)⟩

/-- Settles O16: a valid address and an invalid one, each by its own equation. -/
theorem storerWritesThroughTheRegister : Obligations.StorerWritesThroughTheRegister := by
  unfold Obligations.StorerWritesThroughTheRegister
  exact fun rd rt x s hm => ⟨decode_readRdRt rfl,
    fun ha => ⟨_, exec_storer_of_le ha, Memory.read_write hm _ _⟩, exec_indirect_of_gt (.inr rfl)⟩

/-- Settles O25, by whether the address is valid: a completion keeps the status of the run, the fault writes its record
and nothing else but `pc`. -/
theorem indirectAddressIsValidUpTo255 : Obligations.IndirectAddressIsValidUpTo255 := by
  unfold Obligations.IndirectAddressIsValidUpTo255
  intro rd rt s hs i hi
  rcases Nat.lt_or_ge 255 (s.reg rt).toNat with hgt | hle
  · refine ⟨_, exec_indirect_of_gt hi hgt, rfl, iff_of_false ?_ (Nat.not_le.mpr hgt),
      fun _ => ⟨rfl, rfl, rfl, rfl, rfl, rfl, rfl⟩⟩
    rw [State.raiseFault_status]
    decide
  · obtain ⟨t, he, hpc, hst⟩ := exec_indirect_of_le hi hle
    exact ⟨t, he, hpc, iff_of_true (hst.trans hs) hle, fun hgt => absurd hle (Nat.not_le.mpr hgt)⟩

end Sys2Proof.Machine

/-! PROOFS. Opcodes 12 to 15 (spec/43_control.md R161 to R164). -/

namespace Sys2Proof.Machine

section control
variable {s : State} (rd : Reg) (addr : Addr)

/-- A word is positive in the signed reading where bit 15 is clear and the word is not zero (R162). -/
theorem signed_pos_iff (v : Word) : 0 < signed v ↔ 0 < v.toNat ∧ v.toNat < 32768 := by
  have := v.isLt
  unfold signed
  split <;> omega

theorem exec_beqz_eq :
    exec (.beqz rd addr) s = .next { s with
      pc := if (s.reg rd).toNat = 0 then zext16 addr else s.pc + 1#16, cycles := s.cycles + 1 } := by
  rw [exec, execBeqz, branchIf_eq]
  simp only [isZero_iff, ← BitVec.toNat_inj, BitVec.toNat_zero]

theorem exec_bgtz_eq :
    exec (.bgtz rd addr) s = .next { s with
      pc := if 0 < (s.reg rd).toNat ∧ (s.reg rd).toNat < 32768 then zext16 addr else s.pc + 1#16
      cycles := s.cycles + 1 } := by
  rw [exec, execBgtz, branchIf_eq]
  simp only [isPositive_iff]

theorem exec_jr_eq : exec (.jr rd) s = .next { s with pc := s.reg rd, cycles := s.cycles + 1 } := rfl

theorem exec_jalr_eq :
    exec (.jalr rd addr) s = .next { s with
      regs := s.regs.set rd.val (s.pc + 1#16), pc := zext16 addr, cycles := s.cycles + 1 } := rfl

/-- The link value is the number after `pc`, wrapped only where `pc` is 0xFFFF (R164). -/
theorem State.advance_pc_eq_ofNat : s.advance.pc = BitVec.ofNat 16 (s.pc.toNat + 1) := by
  rw [BitVec.ofNat_add, BitVec.ofNat_toNat, BitVec.setWidth_eq, State.advance_pc]

end control

/-- Settles O19: each branch by its own equation, and the signed reading by the range of the word. -/
theorem conditionalBranchesTestTheRegister : Obligations.ConditionalBranchesTestTheRegister := by
  unfold Obligations.ConditionalBranchesTestTheRegister
  intro rd addr s
  rw [← zext16_eq_ofNat]
  exact ⟨decode_readRdAddr rfl, exec_beqz_eq rd addr, decode_readRdAddr rfl, exec_bgtz_eq rd addr,
    (signed_pos_iff _).symm⟩

/-- Settles O20: `JR` does not check the value; the engine's next fetch does. -/
theorem jrCopiesTheWholeRegister : Obligations.JrCopiesTheWholeRegister := by
  unfold Obligations.JrCopiesTheWholeRegister
  exact fun rd x s => ⟨decode_jr_format2 (nibble rd) x, exec_jr_eq rd,
    engineStep_of_gt (s := { s with pc := s.reg rd, cycles := s.cycles + 1 })⟩

/-- Settles O21: the link value is the incremented `pc`, which does not wrap where an instruction can be fetched. -/
theorem jalrLinksAndJumps : Obligations.JalrLinksAndJumps := by
  unfold Obligations.JalrLinksAndJumps
  intro rd addr s hp
  rw [← zext16_eq_ofNat, ← State.advance_pc_eq_ofNat]
  exact ⟨decode_readRdAddr rfl, exec_jalr_eq rd addr, State.advance_pc_toNat hp⟩

end Sys2Proof.Machine

/-! PROOFS. What a machine reset restores and what it leaves (spec/70_reset_and_hazards.md R241). -/

namespace Sys2Proof.Machine

section machineReset
variable (s : State)

@[simp] theorem State.machineReset_reg (r : Reg) : s.machineReset.reg r = 0x0000#16 := by
  rw [State.reg, State.machineReset_regs, Vector.getElem_replicate]

/-- All the words of memory are the image's again, whatever the program stored (R241). -/
@[simp] theorem State.machineReset_memRead (a : Addr) : s.machineReset.memRead a = s.params.image.read a.toNat := by
  rw [State.memRead, State.machineReset_mem]

/-- The frame of a machine reset: beside the registers and the memory, only `pc`, `cycles` and the cursor are assigned. -/
theorem State.machineReset_eq :
    s.machineReset = { s with
      pc := 0x0010#16, cycles := 0, regs := s.machineReset.regs, mem := s.machineReset.mem
      inPos := if s.params.resetRewindsInput then 0 else s.inPos } := rfl

end machineReset

/-- Settles O42: the registers and the memory read by read, the other fields by the frame of the reset. -/
theorem machineResetRestoresTheMachineState : Obligations.MachineResetRestoresTheMachineState := by
  unfold Obligations.MachineResetRestoresTheMachineState
  exact fun s => ⟨s.machineReset_reg, s.machineReset_memRead, s.machineReset_eq⟩

end Sys2Proof.Machine

/-! PROOFS. Decoding and encoding undo each other, up to the bits a row writes `x` (spec/30_encoding.md sections 1 to 4). -/

namespace Sys2Proof

/-- The canonical word of an instruction, read by the row of its own opcode. -/
theorem decode_encode (i : Instr) : decode (encode i) = i := by
  cases i with
  | halt => exact decode_halt ..
  | add | sub | and | xor | shl | shr => exact decode_readRegs rfl
  | loadi | load | store | beqz | bgtz | jalr => exact decode_readRdAddr rfl
  | loadr | storer => exact decode_readRdRt rfl
  | jr => exact decode_jr ..

@[simp] theorem nibble_regField (w : Word) (i : Nat) : nibble (regField w i) = field w i := rfl

/-- A mask that keeps or clears whole nibbles (R87). -/
theorem format1_and (a b c d a' b' c' d' : BitVec 4) :
    format1 a b c d &&& format1 a' b' c' d' = format1 (a &&& a') (b &&& b') (c &&& c') (d &&& d') := by
  unfold format1
  exact BitVec.and_append.trans (congrArg (· ++ (d &&& d'))
    (BitVec.and_append.trans (congrArg (· ++ (c &&& c')) BitVec.and_append)))

/-- A word under a mask, nibble by nibble. -/
theorem and_format1 (w : Word) (a b c d : BitVec 4) : w &&& format1 a b c d =
    format1 (field w 3 &&& a) (field w 2 &&& b) (field w 1 &&& c) (field w 0 &&& d) := by
  rw [← format1_and, format1_fields]

section encodeRows
variable {w : Word} {op : BitVec 4} (hop : field w 3 = op)
include hop

/-- A row that uses all three register fields gives its word back. -/
theorem encode_decode_readRegs {f : Reg → Reg → Reg → Instr} (hrow : opcodeMap.get op.toFin = readRegs f)
    (hf : ∀ rd rs rt, encode (f rd rs rt) = format1 op (nibble rd) (nibble rs) (nibble rt)) :
    encode (decode w) = w := by
  rw [decode_of_opcode hop, hrow, readRegs, hf, ← hop]
  exact format1_fields w

/-- So does a row of Format 2. -/
theorem encode_decode_readRdAddr {f : Reg → Addr → Instr} (hrow : opcodeMap.get op.toFin = readRdAddr f)
    (hf : ∀ rd addr, encode (f rd addr) = format2 op (nibble rd) addr) : encode (decode w) = w := by
  rw [decode_of_opcode hop, hrow, readRdAddr, hf, ← hop]
  exact format2_fields w

/-- A row that ignores `rs` clears it. -/
theorem encode_decode_readRdRt {f : Reg → Reg → Instr} (hrow : opcodeMap.get op.toFin = readRdRt f)
    (hf : ∀ rd rt, encode (f rd rt) = format1 op (nibble rd) 0x0#4 (nibble rt)) :
    encode (decode w) = format1 (field w 3) (field w 2) 0x0#4 (field w 0) := by
  rw [decode_of_opcode hop, hrow, readRdRt, hf, hop]
  rfl

end encodeRows

theorem and_0xF (x : BitVec 4) : x &&& 0xF#4 = x := BitVec.and_allOnes

/-- Encoding what a word decodes to, row by row of R85: the nibbles written `x` are cleared. -/
theorem encode_decode (w : Word) : encode (decode w) = w &&& usedBits w := by
  have hop : field w 3 = BitVec.ofFin (regField w 3) := rfl
  have hall : w &&& 0xFFFF#16 = w := BitVec.and_allOnes
  have hrdrt : w &&& 0xFF0F#16 = format1 (field w 3) (field w 2) 0x0#4 (field w 0) := by
    rw [show 0xFF0F#16 = format1 0xF#4 0xF#4 0x0#4 0xF#4 from rfl, and_format1]
    simp only [and_0xF, BitVec.and_zero]
  have hrd : w &&& 0xFF00#16 = format1 (field w 3) (field w 2) 0x0#4 0x0#4 := by
    rw [show 0xFF00#16 = format1 0xF#4 0xF#4 0x0#4 0x0#4 from rfl, and_format1]
    simp only [and_0xF, BitVec.and_zero]
  have hnone : w &&& 0xF000#16 = format1 (field w 3) 0x0#4 0x0#4 0x0#4 := by
    rw [show 0xF000#16 = format1 0xF#4 0x0#4 0x0#4 0x0#4 from rfl, and_format1]
    simp only [and_0xF, BitVec.and_zero]
  rw [usedBits]
  match regField w 3, hop with
  | 1, hop | 2, hop | 3, hop | 4, hop | 5, hop | 6, hop =>
    exact (encode_decode_readRegs hop rfl fun _ _ _ => rfl).trans hall.symm
  | 7, hop | 8, hop | 9, hop | 12, hop | 13, hop | 15, hop =>
    exact (encode_decode_readRdAddr hop rfl fun _ _ => rfl).trans hall.symm
  | 10, hop | 11, hop => exact (encode_decode_readRdRt hop rfl fun _ _ => rfl).trans hrdrt.symm
  | 0, hop => exact (congrArg encode (decode_of_opcode hop)).trans (hnone.trans (by rw [hop]; rfl)).symm
  | 14, hop => exact (congrArg encode (decode_of_opcode hop)).trans (hrd.trans (by rw [hop]; rfl)).symm
  | ⟨n + 16, hn⟩, _ => exact absurd hn (Nat.not_lt.mpr (Nat.le_add_left 16 n))

/-- Settles O1: each row of the opcode map reads back the fields its format wrote. -/
theorem decodeOfEncodeIsTheInstruction : Obligations.DecodeOfEncodeIsTheInstruction := by
  unfold Obligations.DecodeOfEncodeIsTheInstruction
  exact decode_encode

/-- Settles O2: the mask of a row clears the nibbles its instruction does not read. -/
theorem encodeOfDecodeClearsOnlyIgnoredBits : Obligations.EncodeOfDecodeClearsOnlyIgnoredBits := by
  unfold Obligations.EncodeOfDecodeClearsOnlyIgnoredBits
  exact encode_decode

/-- Settles O4: the opcode of the decoded instruction is the top nibble, so equal nibbles give one opcode. -/
theorem opcodeNibbleSelectsTheInstruction : Obligations.OpcodeNibbleSelectsTheInstruction := by
  unfold Obligations.OpcodeNibbleSelectsTheInstruction
  exact fun w => ⟨decode_opcode w, fun w' h => (decode_opcode w).trans (h.trans (decode_opcode w').symm)⟩

/-- Settles O6: each of the nine words is the canonical word of its instruction, or differs from it in ignored bits. -/
theorem specWordsDecodeAsWritten : Obligations.SpecWordsDecodeAsWritten := by
  unfold Obligations.SpecWordsDecodeAsWritten
  decide

end Sys2Proof

/-! PROOFS. The canonical form of memory, and that every instruction keeps it (spec/20_memory.md section 1). -/

namespace Sys2Proof.Machine

section canonical
variable {k k' : Nat} {v v' : Word} {m m' : Memory}

@[simp] theorem Memory.read_head (k : Nat) (v : Word) (m : Memory) : Memory.read ((k, v) :: m) k = v := by
  simp [Memory.read]

theorem Memory.read_tail {a : Nat} (h : a ≠ k) : Memory.read ((k, v) :: m) a = Memory.read m a := by
  simp [Memory.read, h]

/-- The first cell of a canonical list is seen by a read: no list of later cells reads alike there. -/
theorem Memory.read_head_ne {lo : Nat} (hm : Memory.wfFrom lo ((k, v) :: m) = true) (hm' : Memory.wfFrom (k + 1) m' = true) :
    Memory.read ((k, v) :: m) k ≠ Memory.read m' k := by
  rw [Memory.read_head, Memory.read_of_lt hm' (Nat.lt_succ_self k)]
  exact ((Memory.wfFrom_cons ..).mp hm).2.2.1

/-- Two canonical lists that read alike have the same cells: the lower of their first addresses would tell them apart. -/
theorem Memory.eq_of_read_eq {lo : Nat} (hm : Memory.wfFrom lo m = true) (hm' : Memory.wfFrom lo m' = true)
    (h : ∀ a, a < 256 → Memory.read m a = Memory.read m' a) : m = m' := by
  induction m generalizing lo m' with
  | nil =>
    cases m' with
    | nil => rfl
    | cons c' m' =>
      obtain ⟨_, hk', _, _⟩ := (Memory.wfFrom_cons ..).mp hm'
      exact absurd (h c'.1 hk').symm (Memory.read_head_ne hm' rfl)
  | cons c m ih =>
    obtain ⟨k, v⟩ := c
    obtain ⟨hlo, hk, hv, hrest⟩ := (Memory.wfFrom_cons ..).mp hm
    cases m' with
    | nil => exact absurd (h k hk) (Memory.read_head_ne hm rfl)
    | cons c' m' =>
      obtain ⟨k', v'⟩ := c'
      obtain ⟨hlo', hk', hv', hrest'⟩ := (Memory.wfFrom_cons ..).mp hm'
      rcases Nat.lt_trichotomy k k' with hlt | rfl | hlt
      · exact absurd (h k hk) (Memory.read_head_ne hm ((Memory.wfFrom_cons ..).mpr ⟨hlt, hk', hv', hrest'⟩))
      · have hval : v = v' := by simpa only [Memory.read_head] using h k hk
        have htail : ∀ a, a < 256 → Memory.read m a = Memory.read m' a := by
          intro a ha
          by_cases hak : a = k
          · rw [hak, Memory.read_of_lt hrest (Nat.lt_succ_self k), Memory.read_of_lt hrest' (Nat.lt_succ_self k)]
          · simpa only [Memory.read_tail hak] using h a ha
        rw [hval, ih hrest hrest' htail]
      · exact absurd (h k' hk').symm (Memory.read_head_ne hm' ((Memory.wfFrom_cons ..).mpr ⟨hlt, hk, hv, hrest⟩))

end canonical

section frames
variable {i : Instr} {s t : State}

theorem State.memRead_memWrite (hm : s.mem.wf = true) (a b : Addr) (v : Word) :
    (s.memWrite a v).memRead b = if b = a then v else s.memRead b := by
  rw [State.memRead, State.memWrite_mem, Memory.read_write hm]
  simp only [BitVec.toNat_inj, State.memRead]

/-- `exec_cases` read backwards: how the next state comes about. -/
theorem exec_next_cases (h : exec i s = .next t) :
    (i = .halt ∧ s.params.debugEn = false ∧ t = { s.advance with status := .halted }) ∨
    (i = .halt ∧ s.params.debugEn = true ∧ t = s.advance.haltUnderDebugger) ∨
    ((∃ rd, i = .load rd 0xFF#8) ∧ s.inRead = none ∧ t = s) ∨
    (∃ rd rt, (i = .loadr rd rt ∨ i = .storer rd rt) ∧ 255 < (s.reg rt).toNat ∧
      t = s.advance.raiseFault .illegalAddress (s.reg rt)) ∨
    Completes i s t := by
  rcases exec_cases i s with ⟨hi, hd, he⟩ | ⟨hi, hd, he⟩ | ⟨hi, hr, he⟩ | ⟨rd, rt, hi, ha, he⟩ | ⟨u, hc, he⟩
  all_goals obtain rfl := Host.Outcome.next.inj (he.symm.trans h)
  · exact .inl ⟨hi, hd, rfl⟩
  · exact .inr (.inl ⟨hi, hd, rfl⟩)
  · exact .inr (.inr (.inl ⟨hi, hr, rfl⟩))
  · exact .inr (.inr (.inr (.inl ⟨rd, rt, hi, ha, rfl⟩)))
  · exact .inr (.inr (.inr (.inr hc)))

/-- An invalid indirect address stores nothing (R146). -/
theorem storesTo_of_gt {rd rt : Reg} (hi : i = .loadr rd rt ∨ i = .storer rd rt) (ha : 255 < (s.reg rt).toNat) :
    i.storesTo s = none := by
  obtain rfl | rfl := hi
  · rfl
  · rw [Instr.storesTo, State.indirectAddress_advance, State.indirectAddress_of_gt ha, Option.map_none]

/-- What memory is after an instruction: the image again after `HALT` under the debugger, else as it was but for the word
the instruction stores (R51, R110). -/
theorem exec_mem_cases (h : exec i s = .next t) :
    (i = .halt ∧ s.params.debugEn = true ∧ t.mem = s.params.image) ∨
    (i.storesTo s = none ∧ t.mem = s.mem) ∨
    ∃ a r, i.storesTo s = some (a, r) ∧ t.mem = s.mem.write a.toNat (s.reg r) := by
  rcases exec_next_cases h with ⟨rfl, _, rfl⟩ | ⟨rfl, hd, rfl⟩ | ⟨⟨rd, rfl⟩, _, rfl⟩ | ⟨rd, rt, hi, ha, rfl⟩ | hc
  · exact .inr (.inl ⟨rfl, rfl⟩)
  · exact .inl ⟨rfl, hd, rfl⟩
  · exact .inr (.inl ⟨rfl, rfl⟩)
  · exact .inr (.inl ⟨storesTo_of_gt hi ha, rfl⟩)
  · cases hs : i.storesTo s with
    | none => exact .inr (.inl ⟨rfl, hc.mem_none hs⟩)
    | some p => exact .inr (.inr ⟨p.1, p.2, rfl, hc.mem_some _ _ hs⟩)

theorem exec_keeps_mem_wf (hm : s.mem.wf = true) (hi : s.params.image.wf = true) (h : exec i s = .next t) :
    t.mem.wf = true := by
  rcases exec_mem_cases h with ⟨_, _, he⟩ | ⟨_, he⟩ | ⟨a, r, _, he⟩ <;> rw [he]
  · exact hi
  · exact hm
  · exact State.memWrite_wf hm a (s.reg r)

/-- The one register an instruction may write is its destination, `HALT` under the debugger apart (R22). -/
theorem exec_reg_of_ne_destReg (h : exec i s = .next t) (hd : ¬(i = .halt ∧ s.params.debugEn = true)) {r : Reg}
    (hr : i.destReg ≠ some r) : t.reg r = s.reg r := by
  rcases exec_next_cases h with ⟨_, _, rfl⟩ | ⟨hi, he, _⟩ | ⟨_, _, rfl⟩ | ⟨_, _, _, _, rfl⟩ | hc
  · rfl
  · exact absurd ⟨hi, he⟩ hd
  · rfl
  · rfl
  · exact hc.regs r hr

/-- What no instruction writes (R30, R59, R222). -/
structure ControlKept (s t : State) : Prop where
  bp : t.bp = s.bp
  bpN : t.bpN = s.bpN
  verbose : t.verbose = s.verbose
  params : t.params = s.params
  phase : t.phase = s.phase
  commands : t.commands = s.commands
  reports : t.reports = s.reports
  freeCount : t.freeCount = s.freeCount

theorem exec_controlKept (h : exec i s = .next t) : ControlKept s t := by
  rcases exec_next_cases h with ⟨_, _, rfl⟩ | ⟨_, _, rfl⟩ | ⟨_, _, rfl⟩ | ⟨_, _, _, _, rfl⟩ | hc
  case inr.inr.inr.inr => rw [hc.eq]; exact ⟨rfl, rfl, rfl, rfl, rfl, rfl, rfl, rfl⟩
  all_goals exact ⟨rfl, rfl, rfl, rfl, rfl, rfl, rfl, rfl⟩

/-- Only `HALT` under the debugger writes `mode` or `started` (R200). -/
theorem exec_mode_cases (h : exec i s = .next t) :
    (t.mode = s.mode ∧ t.started = s.started) ∨
    (i = .halt ∧ s.params.debugEn = true ∧ t.mode = .stopped ∧ t.started = false) := by
  rcases exec_next_cases h with ⟨_, _, rfl⟩ | ⟨hi, hd, rfl⟩ | ⟨_, _, rfl⟩ | ⟨_, _, _, _, rfl⟩ | hc
  · exact .inl ⟨rfl, rfl⟩
  · exact .inr ⟨hi, hd, rfl, rfl⟩
  · exact .inl ⟨rfl, rfl⟩
  · exact .inl ⟨rfl, rfl⟩
  · rw [hc.eq]; exact .inl ⟨rfl, rfl⟩

/-- How an instruction leaves the status and the fault record: as they were, over by `HALT`, or faulted (R110, R183). -/
theorem exec_status_cases (h : exec i s = .next t) :
    (t.status = s.status ∧ t.cause = s.cause ∧ t.faultAddr = s.faultAddr) ∨
    (i = .halt ∧ s.params.debugEn = false ∧ t = { s.advance with status := .halted }) ∨
    ∃ rd rt, (i = .loadr rd rt ∨ i = .storer rd rt) ∧ 255 < (s.reg rt).toNat ∧
      t = s.advance.raiseFault .illegalAddress (s.reg rt) := by
  rcases exec_next_cases h with ⟨hi, hd, rfl⟩ | ⟨_, _, rfl⟩ | ⟨_, _, rfl⟩ | ⟨rd, rt, hi, ha, rfl⟩ | hc
  · exact .inr (.inl ⟨hi, hd, rfl⟩)
  · exact .inl ⟨rfl, rfl, rfl⟩
  · exact .inl ⟨rfl, rfl, rfl⟩
  · exact .inr (.inr ⟨rd, rt, hi, ha, rfl⟩)
  · rw [hc.eq]; exact .inl ⟨rfl, rfl, rfl⟩

/-- The output log is left, or gets the word that a `STORE` to 255 stores, and gets it always (R143, R193). -/
theorem exec_outLog (hm : s.mem.wf = true) (h : exec i s = .next t) :
    (i.writesConsole = false ∧ t.outLog = s.outLog) ∨ ∃ rd, i = .store rd 0xFF#8 ∧ t.outLog = s.outLog ++ [s.reg rd] := by
  by_cases hw : i.writesConsole = true
  · obtain ⟨rd, rfl⟩ := (writesConsole_iff i).mp hw
    obtain rfl := Host.Outcome.next.inj ((exec_store_eq hm 0xFF#8).symm.trans h)
    exact .inr ⟨rd, rfl, rfl⟩
  · refine .inl ⟨Bool.eq_false_iff.mpr hw, ?_⟩
    rcases exec_next_cases h with ⟨_, _, rfl⟩ | ⟨_, _, rfl⟩ | ⟨_, _, rfl⟩ | ⟨_, _, _, _, rfl⟩ | hc
    case inr.inr.inr.inr => rw [hc.outLog, if_neg hw]
    all_goals rfl

/-- Without a console read the input stays, but for the cursor that `HALT` under the debugger puts back (R142, R241). -/
theorem exec_input_of_not_reads (h : exec i s = .next t) (hc : i.readsConsole = false) :
    t.typed = s.typed ∧ (t.inPos = s.inPos ∨
      (i = .halt ∧ s.params.debugEn = true ∧ s.params.resetRewindsInput = true ∧ t.inPos = 0)) := by
  rcases exec_next_cases h with ⟨_, _, rfl⟩ | ⟨hi, hd, rfl⟩ | ⟨_, _, rfl⟩ | ⟨_, _, _, _, rfl⟩ | hcomp
  · exact ⟨rfl, .inl rfl⟩
  · refine ⟨rfl, ?_⟩
    rw [State.haltUnderDebugger_inPos]
    split
    · next hr => exact .inr ⟨hi, hd, hr, rfl⟩
    · exact .inl rfl
  · exact ⟨rfl, .inl rfl⟩
  · exact ⟨rfl, .inl rfl⟩
  · exact ⟨(hcomp.console hc).2, .inl (hcomp.console hc).1⟩

end frames

/-- Settles O18: two canonical lists that read alike on all of memory have the same cells. -/
theorem memoriesThatReadAlikeAreEqual : Obligations.MemoriesThatReadAlikeAreEqual := by
  unfold Obligations.MemoriesThatReadAlikeAreEqual
  exact fun _ _ => Memory.eq_of_read_eq

/-- Settles O17: the read after a write, and the canonical form by what an instruction makes of memory. -/
theorem memoryReadsWhatWasWritten : Obligations.MemoryReadsWhatWasWritten := by
  unfold Obligations.MemoryReadsWhatWasWritten
  exact ⟨fun s a b v hm => ⟨State.memWrite_wf hm a v, State.memRead_memWrite hm a b v⟩,
    fun i s t => exec_keeps_mem_wf⟩

/-- Settles O33: each way an instruction can end, the completion by its own frame. -/
theorem onlyTheDestinationRegisterChanges : Obligations.OnlyTheDestinationRegisterChanges := by
  unfold Obligations.OnlyTheDestinationRegisterChanges
  exact fun i s t r h hr hd => exec_reg_of_ne_destReg h hd hr

/-- Settles O34: memory is kept, or one word is written and read back. -/
theorem onlyTheStoredWordChanges : Obligations.OnlyTheStoredWordChanges := by
  unfold Obligations.OnlyTheStoredWordChanges
  intro i s t hm h hd
  rcases exec_mem_cases h with ⟨hi, he, _⟩ | ⟨hs, hmem⟩ | ⟨a, r, hs, hmem⟩
  · exact absurd ⟨hi, he⟩ hd
  · refine ⟨fun a r hs' => absurd (hs.symm.trans hs') (by simp), fun _ b => ?_⟩
    rw [State.memRead, hmem, State.memRead]
  · have hread (b : Addr) : t.memRead b = if b = a then s.reg r else s.memRead b := by
      rw [State.memRead, hmem]
      exact State.memRead_memWrite hm a b (s.reg r)
    refine ⟨fun a' r' hs' => ?_, fun hs' => absurd (hs'.symm.trans hs) (by simp)⟩
    obtain ⟨rfl, rfl⟩ : a = a' ∧ r = r' := by simpa using hs.symm.trans hs'
    exact ⟨(hread a).trans (if_pos rfl), fun b hb => (hread b).trans (if_neg hb)⟩

/-- Settles O35, from the frames: what no instruction writes, who writes `mode`, and the status with the fault record. -/
theorem instructionsLeaveControlStateAlone : Obligations.InstructionsLeaveControlStateAlone := by
  unfold Obligations.InstructionsLeaveControlStateAlone
  intro i s t h
  obtain ⟨hbp, hbpN, hverbose, hparams, hphase, hcommands, hreports, hfree⟩ := exec_controlKept h
  refine ⟨hbp, hbpN, hverbose, hparams, hphase, hcommands, hreports, hfree, fun hne => ?_, ?_, ?_⟩
  · exact (exec_mode_cases h).resolve_right fun hi => hne hi.1
  all_goals rcases exec_status_cases h with ⟨hst, hcause, haddr⟩ | ⟨hi, hd, rfl⟩ | ⟨rd, rt, hi, ha, rfl⟩
  · exact .inl hst
  · exact .inr (.inl ⟨hi, hd⟩)
  · exact .inr (.inr rfl)
  · exact .inl ⟨hcause, haddr⟩
  · exact .inl ⟨rfl, rfl⟩
  · exact .inr ⟨rfl, rd, rt, hi, ha⟩

/-- Settles O36: the output by `STORE` to 255, the input by what does not read the console. -/
theorem consoleIsReachedOnlyThroughAddress255 : Obligations.ConsoleIsReachedOnlyThroughAddress255 := by
  unfold Obligations.ConsoleIsReachedOnlyThroughAddress255
  intro i s t hm h
  refine ⟨(exec_outLog hm h).imp_left And.right, ?_, exec_input_of_not_reads h⟩
  rintro rd rfl
  rcases exec_outLog hm h with ⟨hw, _⟩ | ⟨rd', hi, hlog⟩
  · exact absurd ((writesConsole_iff _).mpr ⟨rd, rfl⟩) (ne_true_of_eq_false hw)
  · obtain rfl : rd = rd' := by simpa using hi
    exact hlog

end Sys2Proof.Machine

/-! PROOFS. One step read backwards, and what every step keeps (spec/40_step_halt.md section 1, spec/60_exceptions.md
sections 1, 2, 7 and 8). -/

namespace Sys2Proof.Machine

section equations
variable {s : State}

theorem step_of_check (hs : s.status = .active) (hd : s.params.debugEn = true) (hp : s.phase = .check) :
    step s = .next (checkPhase s) := by
  simp only [step, hs, hd, if_true, controllerStep, hp]

theorem step_of_prompt (hs : s.status = .active) (hd : s.params.debugEn = true) (hp : s.phase = .prompt) :
    step s = .next (promptPhase s) := by
  simp only [step, hs, hd, if_true, controllerStep, hp]

theorem step_of_execute (hs : s.status = .active) (hd : s.params.debugEn = true) (hp : s.phase = .execute) :
    step s = if s.heldForInput then .next s else engineStep { s with phase := .check } := by
  simp only [step, hs, hd, if_true, controllerStep, hp, executePhase]

theorem step_of_ended (hs : s.status ≠ .active) : step s = .next s := by
  unfold step
  split
  · contradiction
  all_goals rfl

theorem promptPhase_of_cons {c : Command} {cs : List Command} (hm : s.mode ≠ .running) (hc : s.commands = c :: cs) :
    promptPhase s = interpret c { s with commands := cs } := by
  simp only [promptPhase, if_neg hm, hc]

theorem promptPhase_of_nil (hm : s.mode ≠ .running) (hc : s.commands = []) : promptPhase s = s := by
  simp only [promptPhase, if_neg hm, hc]

end equations

section checkPhase
variable (s : State)

theorem checkPhase_status : (checkPhase s).status = s.status := by rw [checkPhase_eq]
theorem checkPhase_cycles : (checkPhase s).cycles = s.cycles := by rw [checkPhase_eq]
theorem checkPhase_outLog : (checkPhase s).outLog = s.outLog := by rw [checkPhase_eq]
theorem checkPhase_commands : (checkPhase s).commands = s.commands := by rw [checkPhase_eq]
theorem checkPhase_mode : (checkPhase s).mode = if s.matchingSlot.isSome then .step else s.mode := by rw [checkPhase_eq]
theorem checkPhase_phase : (checkPhase s).phase =
    if s.matchingSlot.isSome ∨ s.mode ≠ .running then .prompt else .execute := by rw [checkPhase_eq]

end checkPhase

theorem State.asksHost.debugEn {s : State} (h : s.asksHost) : s.params.debugEn = true := h.2.1

/-- What brings a step from `s` to `t`: nothing happens, one of the controller's actions that are not the engine's, a fetch
that faults, or one instruction (R100, R202). The engine starts at the position `p`, the top of the loop; with the debugger
disabled the loop does not move. -/
inductive StepEvent (s t : State) : Prop
  | idle (ht : t = s)
  | check (hs : s.status = .active) (hd : s.params.debugEn = true) (hp : s.phase = .check) (ht : t = checkPhase s)
  | pass (hs : s.status = .active) (hd : s.params.debugEn = true) (hp : s.phase = .prompt) (hm : s.mode = .running)
      (ht : t = { s with phase := .execute })
  | command (ha : s.asksHost) (c : Command) (cs : List Command) (hc : s.commands = c :: cs)
      (ht : t = interpret c { s with commands := cs })
  | fetchFault (hx : s.executesNext) (p : Phase) (hp : p = .check ∨ s.params.debugEn = false ∧ p = s.phase)
      (hpc : 255 < s.pc.toNat) (ht : t = { s with phase := p }.raiseFault .illegalFetch s.pc)
  | executes (hx : s.executesNext) (p : Phase) (hp : p = .check ∨ s.params.debugEn = false ∧ p = s.phase)
      (i : Instr) (hi : s.instrAtPc = some i) (he : exec i { s with phase := p } = .next t)

section inversion
variable {s t : State}

/-- A step that runs the engine is a fetch that faults or an instruction. -/
theorem stepEvent_of_engineStep (hx : s.executesNext) {p : Phase} (hp : p = .check ∨ s.params.debugEn = false ∧ p = s.phase)
    (h : engineStep { s with phase := p } = .next t) : StepEvent s t := by
  rcases engineStep_cases { s with phase := p } with ⟨hpc, _, he⟩ | ⟨_, i, hi, he⟩
  · exact .fetchFault hx p hp hpc (Host.Outcome.next.inj (he.symm.trans h)).symm
  · exact .executes hx p hp i hi (he.symm.trans h)

/-- `step_cases` read backwards. -/
theorem stepEvent_of_step (h : step s = .next t) : StepEvent s t := by
  have same {u : State} (he : step s = .next u) : t = u := (Host.Outcome.next.inj (he.symm.trans h)).symm
  rcases step_cases s with ⟨_, he⟩ | ⟨hs, hd, he⟩ | ⟨hs, hd, ⟨hp, he⟩ | ⟨hp, hm, he⟩ | ⟨_, _, he⟩ | ⟨ha, c, cs, hc, he⟩ |
    ⟨_, _, he⟩ | ⟨hp, _, he⟩⟩
  · exact .idle (same he)
  · have hx : s.executesNext := ⟨hs, fun hd' => absurd hd' (ne_true_of_eq_false hd)⟩
    exact stepEvent_of_engineStep hx (.inr ⟨hd, rfl⟩) (he.symm.trans h)
  · exact .check hs hd hp (same he)
  · exact .pass hs hd hp hm (same he)
  · exact .idle (same he)
  · exact .command ha c cs hc (same he)
  · exact .idle (same he)
  · exact stepEvent_of_engineStep ⟨hs, fun _ => hp⟩ (.inl rfl) (he.symm.trans h)

theorem step_next (s : State) : ∃ t, step s = .next t := by
  rcases step_cases s with ⟨_, h⟩ | ⟨_, _, h⟩ | ⟨_, _, ⟨_, h⟩ | ⟨_, _, h⟩ | ⟨_, _, h⟩ | ⟨_, _, _, _, h⟩ | ⟨_, _, h⟩ | ⟨_, _, h⟩⟩
  case inr.inl | inr.inr.inr.inr.inr.inr.inr => rw [h]; exact engineStep_next _
  all_goals exact ⟨_, h⟩

/-- How an instruction leaves the cycle counter (R104, R110). -/
theorem exec_cycles_cases {i : Instr} (h : exec i s = .next t) :
    t.cycles = s.cycles ∨ t.cycles = s.cycles + 1 ∨ (i = .halt ∧ s.params.debugEn = true ∧ t.cycles = 0) := by
  rcases exec_next_cases h with ⟨_, _, rfl⟩ | ⟨hi, hd, rfl⟩ | ⟨_, _, rfl⟩ | ⟨_, _, _, _, rfl⟩ | hc
  · exact .inl rfl
  · exact .inr (.inr ⟨hi, hd, rfl⟩)
  · exact .inl rfl
  · exact .inl rfl
  · exact .inr (.inl hc.cycles_eq)

/-- An instruction that leaves the state as it is waits for input: every other one ends the run, resets the machine, faults
or is counted (R104, R106). -/
theorem waits_of_exec_eq_self {i : Instr} (hs : s.status = .active) (hd : s.params.debugEn = false)
    (h : exec i s = .next s) : (∃ rd, i = .load rd 0xFF#8) ∧ s.inRead = none := by
  rcases exec_next_cases h with ⟨_, _, ht⟩ | ⟨_, he, _⟩ | ⟨hi, hr, _⟩ | ⟨_, _, _, _, ht⟩ | hc
  · exact nomatch hs.symm.trans (congrArg State.status ht)
  · exact absurd he (ne_true_of_eq_false hd)
  · exact ⟨hi, hr⟩
  · exact nomatch hs.symm.trans (congrArg State.status ht)
  · exact absurd hc.cycles_eq (Nat.succ_ne_self _).symm

/-- Who writes the status: `quit` at the prompt, `HALT` with the debugger disabled, and the two faults (R28, R180). -/
theorem step_status_cases (h : step s = .next t) :
    t.status = s.status ∨
    (t.status = .quit ∧ s.asksHost ∧ s.commands.head? = some .quit) ∨
    (t.status = .halted ∧ s.params.debugEn = false ∧ s.instrAtPc = some .halt) ∨
    (s.executesNext ∧ ∃ p,
      (255 < s.pc.toNat ∧ t = { s with phase := p }.raiseFault .illegalFetch s.pc) ∨
      ∃ rd rt, (s.instrAtPc = some (.loadr rd rt) ∨ s.instrAtPc = some (.storer rd rt)) ∧ 255 < (s.reg rt).toNat ∧
        t = { s with phase := p }.advance.raiseFault .illegalAddress (s.reg rt)) := by
  cases stepEvent_of_step h with
  | idle ht => exact .inl (ht ▸ rfl)
  | check _ _ _ ht => exact .inl (ht ▸ checkPhase_status s)
  | pass _ _ _ _ ht => exact .inl (ht ▸ rfl)
  | command ha c cs hc ht =>
    rcases interpret_status c { s with commands := cs } with hst | rfl
    · exact .inl (ht ▸ hst)
    · exact .inr (.inl ⟨ht ▸ rfl, ha, hc ▸ rfl⟩)
  | fetchFault hx p _ hpc ht => exact .inr (.inr (.inr ⟨hx, p, .inl ⟨hpc, ht⟩⟩))
  | executes hx p _ i hi he =>
    rcases exec_status_cases he with ⟨hst, _⟩ | ⟨rfl, hd, ht⟩ | ⟨rd, rt, hi', ha, ht⟩
    · exact .inl hst
    · exact .inr (.inr (.inl ⟨ht ▸ rfl, hd, hi⟩))
    · have hat := hi'.imp (hi.trans <| congrArg some ·) (hi.trans <| congrArg some ·)
      exact .inr (.inr (.inr ⟨hx, p, .inr ⟨rd, rt, hat, ha, ht⟩⟩))

end inversion

/-- Settles O27: of all that writes the status only the fetch above 255 and an invalid indirect address leave it
faulted. -/
theorem faultEntryWritesOnlyTheRecord : Obligations.FaultEntryWritesOnlyTheRecord := by
  unfold Obligations.FaultEntryWritesOnlyTheRecord
  intro s t hs h ht
  rcases step_status_cases h with hst | ⟨hq, _⟩ | ⟨hh, _⟩ | ⟨hx, p, ⟨hpc, rfl⟩ | ⟨rd, rt, hi, ha, rfl⟩⟩
  · exact nomatch (hst.trans hs).symm.trans ht
  · exact nomatch hq.symm.trans ht
  · exact nomatch hh.symm.trans ht
  · exact ⟨hx, .inl ⟨rfl, hpc, rfl⟩⟩
  · exact ⟨hx, .inr ⟨rfl, rd, rt, hi, ha, rfl⟩⟩

/-- Settles O28. -/
theorem everyStepAnswersANextState : Obligations.EveryStepAnswersANextState := by
  unfold Obligations.EveryStepAnswersANextState
  exact ⟨exec_next, step_next⟩

/-- Settles O29: the host's additions leave the status, and a step writes it in no other way than these. -/
theorem runEndsOnlyByHaltFaultOrQuit : Obligations.RunEndsOnlyByHaltFaultOrQuit := by
  unfold Obligations.RunEndsOnlyByHaltFaultOrQuit
  refine ⟨fun s c w hs => ⟨step_of_ended hs, step_of_ended hs, step_of_ended hs⟩, fun s t hs h ht => ?_⟩
  rcases step_status_cases h with hst | hquit | hhalt | ⟨hx, p, ⟨_, rfl⟩ | ⟨_, _, _, _, rfl⟩⟩
  · exact absurd (hst.trans hs) ht
  · exact .inr (.inl hquit)
  · exact .inl hhalt
  · exact .inr (.inr ⟨rfl, hx⟩)
  · exact .inr (.inr ⟨rfl, hx⟩)

/-- Settles O30: the step is the engine's, and an instruction that leaves the state as it is waits. -/
theorem onlyLoadFrom255CanWait : Obligations.OnlyLoadFrom255CanWait := by
  unfold Obligations.OnlyLoadFrom255CanWait
  intro s hs hd
  rw [step_freeRun hs hd]
  rcases engineStep_cases s with ⟨_, hi, he⟩ | ⟨_, i, hi, he⟩ <;> rw [he, hi]
  · refine iff_of_false (fun h => ?_) (by simp)
    exact nomatch (congrArg State.status (Host.Outcome.next.inj h)).trans hs
  · constructor
    · intro h
      obtain ⟨⟨rd, rfl⟩, hr⟩ := waits_of_exec_eq_self hs hd h
      exact ⟨⟨rd, rfl⟩, hr⟩
    · rintro ⟨⟨rd, hload⟩, hr⟩
      exact exec_of_waits ((readsConsole_iff i).mpr ⟨rd, Option.some.inj hload⟩) hr

/-- Settles O37: of all that a step can do only an instruction reaches the output log, and of these only `STORE` to 255. -/
theorem outputLogOnlyGrows : Obligations.OutputLogOnlyGrows := by
  unfold Obligations.OutputLogOnlyGrows
  intro s t hm h
  cases stepEvent_of_step h with
  | idle ht => exact .inl (ht ▸ rfl)
  | check _ _ _ ht => exact .inl (ht ▸ checkPhase_outLog s)
  | pass _ _ _ _ ht => exact .inl (ht ▸ rfl)
  | command _ c cs _ ht =>
    subst ht
    rcases interpret_cases c { s with commands := cs } with hdbg | ⟨_, _, he⟩
    · exact .inl (by rw [hdbg.eq])
    · exact .inl (by rw [he]; rfl)
  | fetchFault _ p _ _ ht => exact .inl (ht ▸ rfl)
  | executes hx p _ i hi he =>
    rcases exec_outLog (s := { s with phase := p }) hm he with ⟨_, hlog⟩ | ⟨rd, rfl, hlog⟩
    · exact .inl hlog
    · exact .inr ⟨hx, rd, hi, hlog⟩

/-- Settles O38: a command that is not a restart keeps the counter, and so do the other actions of the controller; an
instruction counts one cycle or none, or is `HALT`. -/
theorem cyclesGrowBetweenResets : Obligations.CyclesGrowBetweenResets := by
  unfold Obligations.CyclesGrowBetweenResets
  intro s t h
  cases stepEvent_of_step h with
  | idle ht => exact .inl (ht ▸ rfl)
  | check _ _ _ ht => exact .inl (ht ▸ checkPhase_cycles s)
  | pass _ _ _ _ ht => exact .inl (ht ▸ rfl)
  | command ha c cs hc ht =>
    subst ht
    rcases interpret_cases c { s with commands := cs } with hdbg | ⟨rfl, hst, he⟩
    · exact .inl (by rw [hdbg.eq])
    · exact .inr (.inr ⟨he ▸ rfl, ha.debugEn, .inr ⟨ha, hst, hc ▸ rfl⟩⟩)
  | fetchFault _ p _ _ ht => exact .inl (ht ▸ rfl)
  | executes hx p _ i hi he =>
    rcases exec_cycles_cases he with hcyc | hcyc | ⟨rfl, hd, hcyc⟩
    · exact .inl hcyc
    · exact .inr (.inl hcyc)
    · exact .inr (.inr ⟨hcyc, hd, .inl ⟨hx, hi⟩⟩)

/-- Settles O23: below 256 the fetch reads memory, with the debugger disabled by the engine's step, else at item 4. -/
theorem stepRunsTheDecodedInstruction : Obligations.StepRunsTheDecodedInstruction := by
  unfold Obligations.StepRunsTheDecodedInstruction
  intro s hs hpc
  refine ⟨fun hd => (step_freeRun hs hd).trans (engineStep_of_le hpc), fun hd hp => ?_⟩
  rw [step_of_execute hs hd hp, heldForInput_of_le hpc, engineStep_of_le (s := { s with phase := .check }) hpc]

/-- Settles O41: the store leaves `pc` at its own address, and the next fetch reads the word it stored. -/
theorem storeIsSeenByTheNextFetch : Obligations.StoreIsSeenByTheNextFetch := by
  unfold Obligations.StoreIsSeenByTheNextFetch
  intro rd addr s hm hs hd hi haddr
  rcases engineStep_cases s with ⟨_, hnone, _⟩ | ⟨hpc, i, hi', he⟩
  · exact absurd (hnone.symm.trans hi) (by simp)
  obtain rfl : i = .store rd addr := Option.some.inj (hi'.symm.trans hi)
  obtain ⟨t, ht⟩ := exec_next (.store rd addr) s
  have heq := Host.Outcome.next.inj (ht.symm.trans (exec_store_eq hm addr))
  have hpct : t.pc.toNat = addr.toNat := by rw [heq, haddr]; exact State.advance_pc_toNat hpc
  have hread : t.mem.read t.pc.toNat = s.reg rd := by
    rw [hpct, heq]; exact (Memory.read_write hm ..).trans (if_pos rfl)
  have hst : t.status = .active := by rw [heq]; exact hs
  have hdt : t.params.debugEn = false := by rw [heq]; exact hd
  refine ⟨t, ((step_freeRun hs hd).trans he).trans ht, hpct, ?_⟩
  rw [step_freeRun hst hdt, engineStep_of_le (hpct ▸ Nat.le_of_lt_succ addr.isLt), hread]

/-- Settles O54: a command is consumed by the prompt's step alone. -/
theorem commandsAreTakenOnlyAtThePrompt : Obligations.CommandsAreTakenOnlyAtThePrompt := by
  unfold Obligations.CommandsAreTakenOnlyAtThePrompt
  refine ⟨fun s t h hne => ?_, fun s c cs ⟨hs, hd, hp, hm⟩ hc => ?_, fun s ⟨hs, hd, hp, hm⟩ hc => ?_⟩
  · cases stepEvent_of_step h with
    | idle ht => exact absurd (congrArg State.commands ht) hne
    | check _ _ _ ht => exact absurd (ht ▸ checkPhase_commands s) hne
    | pass _ _ _ _ ht => exact absurd (congrArg State.commands ht) hne
    | command ha => exact ha
    | fetchFault _ p _ _ ht => exact absurd (congrArg State.commands ht) hne
    | executes _ p _ i _ he => exact absurd (exec_controlKept he).commands hne
  · rw [step_of_prompt hs hd hp, promptPhase_of_cons hm hc]
  · rw [step_of_prompt hs hd hp, promptPhase_of_nil hm hc]

end Sys2Proof.Machine

/-! PROOFS. The commands of the debugger (spec/60_exceptions.md section 8, R205 to R222). -/

namespace Sys2Proof.Machine

section run
variable {s : State} {confirm : Bool}

theorem cmdRun_of_not_started (hs : s.started = false) : cmdRun confirm s = s.resume .running := by
  rw [cmdRun, if_neg (ne_true_of_eq_false hs)]

theorem cmdRun_of_started (hs : s.started = true) :
    cmdRun confirm s = if confirm then s.machineReset.resume .running else s := by
  rw [cmdRun, if_pos hs]

theorem cmdNext_of_declined (hs : s.started = false) (hc : confirm = false) : cmdNext confirm s = s := by
  rw [cmdNext, hs, hc, Bool.or_self, if_neg Bool.false_ne_true]

theorem cmdNext_of_resumes (h : s.started = true ∨ confirm = true) : cmdNext confirm s = s.resume .step := by
  rw [cmdNext, if_pos (Bool.or_eq_true_iff.mpr h)]

end run

section table
variable {s : State} {a : Addr} {i : Nat}

/-- While slots are left `break` hands out the next one (R210). -/
theorem addBreakpoint_of_lt (h : s.bpN < 16) :
    s.addBreakpoint a = { s with bp := s.bp.set s.bpN (some a), bpN := s.bpN + 1 } := by
  rw [State.addBreakpoint, if_pos (show s.bpN < Config.nbp from h), State.setSlot_eq s h]

/-- After that it reuses the lowest `EMPTY` slot (R210). -/
theorem addBreakpoint_of_empty (hN : 16 ≤ s.bpN) (hi : i < 16) (he : s.bp[i] = none)
    (hlow : ∀ j (_ : j < 16), j < i → s.bp[j] ≠ none) :
    s.addBreakpoint a = { s with bp := s.bp.set i (some a) } := by
  have hslot : s.emptySlot = some i := (findSlot_eq_some_iff ..).mpr
    ⟨hi, Option.isNone_iff_eq_none.mpr he, fun j hj hlt => Option.isNone_eq_false_iff.mpr
      (Option.isSome_iff_ne_none.mpr (hlow j hj hlt))⟩
  rw [State.addBreakpoint, if_neg (show ¬s.bpN < Config.nbp from Nat.not_lt.mpr hN), hslot]
  exact State.setSlot_eq s hi (some a)

theorem addBreakpoint_of_full (hN : 16 ≤ s.bpN) (hfull : ∀ i (_ : i < 16), s.bp[i] ≠ none) :
    s.addBreakpoint a = s.report .breakpointTableFull := by
  have hslot : s.emptySlot = none := (findSlot_eq_none_iff ..).mpr
    fun j hj => Option.isNone_eq_false_iff.mpr (Option.isSome_iff_ne_none.mpr (hfull j hj))
  rw [State.addBreakpoint, if_neg (show ¬s.bpN < Config.nbp from Nat.not_lt.mpr hN), hslot]

theorem cmdBreak_of_le {n : Nat} (h : n ≤ 255) : cmdBreak (some n) s = s.addBreakpoint (BitVec.ofNat 8 n) :=
  if_pos ((isAddress_iff n).mpr h)

theorem cmdBreak_of_gt {n : Nat} (h : 255 < n) : cmdBreak (some n) s = s.report .badArgument :=
  if_neg (mt (isAddress_iff n).mp (Nat.not_le.mpr h))

theorem cmdDelete_of_out {n : Nat} (h : n < 1 ∨ 16 < n) :
    cmdDelete (some n) s = s.report .invalidBreakpointReference :=
  if_neg fun hn : 1 ≤ n ∧ n ≤ 16 => by omega

theorem cmdDelete_of_in (hi : i < 16) : cmdDelete (some (i + 1)) s = s.deleteBreakpoint (i + 1) :=
  if_pos (show 1 ≤ i + 1 ∧ i + 1 ≤ 16 from ⟨Nat.le_add_left .., hi⟩)

theorem deleteBreakpoint_of_active (hi : i < 16) (h : s.bp[i] ≠ none) :
    s.deleteBreakpoint (i + 1) = { s with bp := s.bp.set i none } := by
  have hsome : (s.bp[i + 1 - 1]?).join.isSome = true := by
    simpa [hi, Option.isSome_iff_ne_none] using h
  rw [State.deleteBreakpoint, if_pos hsome]
  exact State.setSlot_eq s hi none

/-- Whether an `EMPTY` slot is reported is a free value; the table stays (R211, D23). -/
theorem deleteBreakpoint_of_empty (hi : i < 16) (h : s.bp[i] = none) :
    s.deleteBreakpoint (i + 1) = { s with freeCount := s.freeCount + 1 } ∨
    s.deleteBreakpoint (i + 1) = { s with freeCount := s.freeCount + 1 }.report .invalidBreakpointReference := by
  have hnone : ¬(s.bp[i + 1 - 1]?).join.isSome = true := by simp [hi, h]
  rw [State.deleteBreakpoint, if_neg hnone]
  dsimp only
  split
  · exact .inr rfl
  · exact .inl rfl

/-- Emptying an `EMPTY` slot changes nothing. -/
theorem set_none_of_empty {bp : Vector (Option Addr) 16} (hi : i < 16) (h : bp[i] = none) : bp.set i none = bp := by
  rw [← h, Vector.set_getElem_self]

end table
section shown
variable (s : State)

theorem cmdList_report (arg : ListArg) : ∃ r, cmdList arg s = s.report r := by
  cases arg with
  | here | malformed => exact ⟨_, rfl⟩
  | around a | range a b => simp only [cmdList]; split <;> exact ⟨_, rfl⟩

/-- `list` is a report and nothing else, whatever its argument (R214). -/
theorem cmdList_eq (arg : ListArg) : cmdList arg s = { s with reports := (cmdList arg s).reports } := by
  obtain ⟨r, hr⟩ := cmdList_report s arg
  rw [hr]; rfl

/-- A command with a bad argument is a report and nothing else (R210, R211, R218). -/
theorem interpret_of_not_wellFormed {c : Command} (h : c.wellFormed = false) :
    interpret c s = { s with reports := (interpret c s).reports } := by
  cases c with
  | brk a =>
    cases a with
    | none => rfl
    | some a =>
      have he : interpret (.brk (some a)) s = s.report .badArgument := if_neg (ne_true_of_eq_false h)
      rw [he]; rfl
  | delete n =>
    cases n with
    | none => rfl
    | some n =>
      rw [Command.wellFormed, Bool.and_eq_false_iff] at h
      have hout : n < 1 ∨ 16 < n :=
        h.imp (Nat.not_le.mp <| of_decide_eq_false ·) (Nat.not_le.mp <| of_decide_eq_false ·)
      have he : interpret (.delete (some n)) s = s.report .invalidBreakpointReference := cmdDelete_of_out hout
      rw [he]; rfl
  | list arg => exact cmdList_eq s arg
  | _ => cases h

/-- The active slots are listed by number, each once (R212). -/
theorem activeBreakpoints_pairwise : s.activeBreakpoints.Pairwise (fun p q => p.1 < q.1) := by
  refine List.Pairwise.filterMap (R := fun p q => p.2 < q.2) _ ?_ ?_
  · intro p q hlt b hb b' hb'
    obtain ⟨_, _, rfl⟩ := Option.map_eq_some_iff.mp hb
    obtain ⟨_, _, rfl⟩ := Option.map_eq_some_iff.mp hb'
    exact Nat.succ_lt_succ hlt
  · rw [List.pairwise_iff_getElem]
    intro i j hi hj hlt
    simpa using hlt

theorem mem_activeBreakpoints_iff (n : Nat) (a : Addr) :
    (n, a) ∈ s.activeBreakpoints ↔ ∃ i, ∃ h : i < 16, n = i + 1 ∧ s.bp[i] = some a := by
  simp only [State.activeBreakpoints, List.mem_filterMap, List.mem_zipIdx_iff_getElem?, Option.map_eq_some_iff,
    Prod.mk.injEq]
  constructor
  · rintro ⟨⟨slot, i⟩, hget, b, rfl, rfl, rfl⟩
    obtain ⟨hi, hslot⟩ := List.getElem?_eq_some_iff.mp hget
    exact ⟨i, by simpa using hi, rfl, by simpa using hslot⟩
  · rintro ⟨i, hi, rfl, hslot⟩
    refine ⟨(some a, i), List.getElem?_eq_some_iff.mpr ⟨by simpa using hi, by simpa using hslot⟩, a, rfl, rfl, rfl⟩

/-- An explicit range that lies in memory is shown whole (R214). -/
theorem cellsFrom_range {a b : Nat} (hab : a ≤ b) (hb : b ≤ 255) :
    s.cellsFrom a (b + 1 - a) = (List.range (b + 1 - a)).map (fun k => (a + k, s.mem.read (a + k))) := by
  rw [State.cellsFrom_eq, Nat.min_eq_left (by omega)]

end shown

/-- Settles O47. -/
theorem runStartsOrRestartsTheProgram : Obligations.RunStartsOrRestartsTheProgram := by
  unfold Obligations.RunStartsOrRestartsTheProgram
  refine fun s confirm => ⟨fun hs hc => ?_, fun hs hc => ?_, cmdRun_of_not_started⟩
  · exact (cmdRun_of_started hs).trans (if_neg (ne_true_of_eq_false hc))
  · exact (cmdRun_of_started hs).trans (if_pos hc)

/-- Settles O48. -/
theorem stepContinueAndNextResume : Obligations.StepContinueAndNextResume := by
  unfold Obligations.StepContinueAndNextResume
  exact fun s confirm => ⟨rfl, rfl, cmdNext_of_declined, cmdNext_of_resumes⟩

/-- Settles O51. -/
theorem verboseNoverboseAndQuit : Obligations.VerboseNoverboseAndQuit := by
  unfold Obligations.VerboseNoverboseAndQuit
  exact fun s => ⟨rfl, rfl, rfl⟩

/-- Settles O49, one equation for each state of the table. -/
theorem breakFillsSlotsInOrderThenReuses : Obligations.BreakFillsSlotsInOrderThenReuses := by
  unfold Obligations.BreakFillsSlotsInOrderThenReuses
  refine fun s a => ⟨cmdBreak_of_gt, rfl, fun h ha => ?_, fun i hi hN ha he hlow => ?_, fun hN ha hfull => ?_⟩
  · exact (cmdBreak_of_le ha).trans (addBreakpoint_of_lt h)
  · exact (cmdBreak_of_le ha).trans (addBreakpoint_of_empty hN hi he hlow)
  · exact (cmdBreak_of_le ha).trans (addBreakpoint_of_full hN hfull)

/-- Settles O50, by whether the slot is active or `EMPTY`. -/
theorem deleteEmptiesTheSlot : Obligations.DeleteEmptiesTheSlot := by
  unfold Obligations.DeleteEmptiesTheSlot
  refine fun s n => ⟨cmdDelete_of_out, ?_⟩
  rintro i hi rfl
  refine ⟨_, rfl, ?_⟩
  rw [show interpret (.delete (some (i + 1))) s = s.deleteBreakpoint (i + 1) from cmdDelete_of_in hi]
  by_cases h : s.bp[i] = none
  · rw [set_none_of_empty hi h]
    rcases deleteBreakpoint_of_empty hi h with he | he <;> rw [he]
    · exact ⟨rfl, rfl, fun hne => absurd h hne, fun _ => ⟨rfl, .inl rfl⟩⟩
    · exact ⟨rfl, rfl, fun hne => absurd h hne, fun _ => ⟨rfl, .inr rfl⟩⟩
  · rw [deleteBreakpoint_of_active hi h]
    exact ⟨rfl, rfl, fun _ => rfl, fun he => absurd he h⟩

/-- Settles O52: the inspecting commands are reports, `list` and the ill-formed commands by their own lemmas. -/
theorem inspectionAndBadCommandsChangeNothing : Obligations.InspectionAndBadCommandsChangeNothing := by
  unfold Obligations.InspectionAndBadCommandsChangeNothing
  rintro s c (rfl | ⟨arg, rfl⟩ | rfl | rfl | rfl | hbad)
  case inr.inl => exact cmdList_eq s arg
  case inr.inr.inr.inr.inr => exact interpret_of_not_wellFormed s hbad
  all_goals rfl

/-- Settles O53. -/
theorem inspectionShowsTheState : Obligations.InspectionShowsTheState := by
  unfold Obligations.InspectionShowsTheState
  refine fun s => ⟨⟨_, rfl, activeBreakpoints_pairwise s, mem_activeBreakpoints_iff s⟩, fun a b hab hb => ?_, rfl⟩
  refine ⟨s.cellsFrom a (b + 1 - a), if_pos ?_, cellsFrom_range s hab hb⟩
  rw [(isAddress_iff a).mpr (hab.trans hb), (isAddress_iff b).mpr hb, Bool.and_self]

/-- Settles O60: the window begins `windowBelow` cells before the address and is cut at the ends of memory. -/
theorem listShowsAWindowCentredOnTheAddress : Obligations.ListShowsAWindowCentredOnTheAddress := by
  unfold Obligations.ListShowsAWindowCentredOnTheAddress
  intro s a ha
  have hlt := @windowBelow_lt s.params.listWindow
  have hodd := @windowBelow_odd s.params.listWindow a
  have heven := @windowBelow_even s.params.listWindow a
  have haround : interpret (.list (.around a)) s = s.report (.memory (s.windowAround a)) :=
    if_pos ((isAddress_iff a).mpr ha)
  rw [State.windowAround_eq s ha] at haround
  refine ⟨_, _, haround, ?_, ?_⟩
  · rintro rfl
    rw [haround, ← State.windowAround_eq s ha]
    rfl
  · have hlt' := fun hn => hlt hn a
    clear hlt haround
    generalize windowBelow s.params.listWindow a = below at *
    generalize s.params.listWindow = n at *
    omega

end Sys2Proof.Machine

/-! PROOFS. What a command does to the debugger and to the machine (spec/60_exceptions.md section 8, R201, R222). -/

namespace Sys2Proof.Machine

/-- The breakpoint table is filled from the front (R33). -/
structure State.TableOrdered (s : State) : Prop where
  bpN_le : s.bpN ≤ 16
  bp_later : ∀ i (h : i < 16), s.bpN ≤ i → s.bp[i] = none

/-- A command after which the loop asks again: it may change the breakpoint table, whose order it keeps, `verbose` and what
the host is shown. -/
structure StaysAtPrompt (s t : State) : Prop where
  eq : t = { s with bp := t.bp, bpN := t.bpN, verbose := t.verbose, reports := t.reports, freeCount := t.freeCount }
  ordered : s.TableOrdered → t.TableOrdered

/-- What a command does: it stays at the prompt, hands control to the engine, restarts the program first, or ends the run
(R205 to R218). -/
inductive CommandEffect (c : Command) (s t : State) : Prop
  | stays (h : StaysAtPrompt s t)
  | steps (hc : c = .step ∨ ∃ y, c = .next y) (ht : t = s.resume .step)
  | runs (hc : c = .cont ∨ ∃ y, c = .run y) (ht : t = s.resume .running)
  | restarts (hc : c = .run true) (hs : s.started = true) (ht : t = s.machineReset.resume .running)
  | quits (hc : c = .quit) (ht : t = { s with status := .quit })

section effects
variable (s : State)

theorem staysAtPrompt_report (r : Report) : StaysAtPrompt s (s.report r) :=
  ⟨rfl, fun ⟨hN, hlater⟩ => ⟨hN, hlater⟩⟩

/-- A slot that is set was handed out before, or is the next one. -/
theorem addBreakpoint_staysAtPrompt (a : Addr) : StaysAtPrompt s (s.addBreakpoint a) := by
  by_cases hN : s.bpN < 16
  · rw [addBreakpoint_of_lt hN]
    refine ⟨rfl, fun ⟨_, hlater⟩ => ⟨hN, fun i hi hle => ?_⟩⟩
    exact (Vector.getElem_set_ne hN hi (Nat.ne_of_lt hle)).trans (hlater i hi (Nat.le_of_lt hle))
  · cases hslot : s.emptySlot with
    | none =>
      rw [State.addBreakpoint, if_neg (show ¬s.bpN < Config.nbp from hN), hslot]
      exact staysAtPrompt_report s _
    | some i =>
      obtain ⟨hi, _⟩ := (findSlot_eq_some_iff ..).mp hslot
      rw [State.addBreakpoint, if_neg (show ¬s.bpN < Config.nbp from hN), hslot]
      dsimp only
      rw [State.setSlot_eq s hi]
      exact ⟨rfl, fun ⟨hle, _⟩ => ⟨hle, fun j hj hle' => absurd (Nat.lt_of_le_of_lt hle' hj) hN⟩⟩

theorem deleteBreakpoint_staysAtPrompt {i : Nat} (hi : i < 16) : StaysAtPrompt s (s.deleteBreakpoint (i + 1)) := by
  by_cases h : s.bp[i] = none
  · rcases deleteBreakpoint_of_empty hi h with he | he <;> rw [he] <;>
      exact ⟨rfl, fun ⟨hN, hlater⟩ => ⟨hN, hlater⟩⟩
  · rw [deleteBreakpoint_of_active hi h]
    refine ⟨rfl, fun ⟨hN, hlater⟩ => ⟨hN, fun j hj hle => ?_⟩⟩
    by_cases hij : i = j
    · subst hij; exact Vector.getElem_set_self hj
    · exact (Vector.getElem_set_ne hi hj hij).trans (hlater j hj hle)

theorem commandEffect (c : Command) : CommandEffect c s (interpret c s) := by
  cases c with
  | run confirm =>
    cases hs : s.started with
    | false => exact .runs (.inr ⟨_, rfl⟩) (cmdRun_of_not_started hs)
    | true =>
      cases confirm with
      | false =>
        have he : interpret (.run false) s = s := (cmdRun_of_started hs).trans (if_neg Bool.false_ne_true)
        exact .stays (he.symm ▸ ⟨rfl, id⟩)
      | true => exact .restarts rfl hs (cmdRun_of_started hs)
  | step => exact .steps (.inl rfl) rfl
  | cont => exact .runs (.inl rfl) rfl
  | next confirm =>
    by_cases h : s.started = true ∨ confirm = true
    · exact .steps (.inr ⟨_, rfl⟩) (cmdNext_of_resumes h)
    · rw [not_or, Bool.not_eq_true, Bool.not_eq_true] at h
      have he : interpret (.next confirm) s = s := cmdNext_of_declined h.1 h.2
      exact .stays (he.symm ▸ ⟨rfl, id⟩)
  | brk a =>
    refine .stays ?_
    simp only [interpret, cmdBreak]
    split
    · split
      · exact addBreakpoint_staysAtPrompt s _
      · exact staysAtPrompt_report s _
    · exact staysAtPrompt_report s _
  | delete n =>
    refine .stays ?_
    simp only [interpret, cmdDelete]
    split
    · split
      · next n hn =>
        obtain ⟨i, rfl⟩ := Nat.exists_eq_add_of_le' hn.1
        exact deleteBreakpoint_staysAtPrompt s hn.2
      · exact staysAtPrompt_report s _
    · exact staysAtPrompt_report s _
  | list arg =>
    obtain ⟨r, hr⟩ := cmdList_report s arg
    have he : interpret (.list arg) s = s.report r := hr
    exact .stays (he ▸ staysAtPrompt_report s r)
  | quit => exact .quits rfl rfl
  | info | reg | help => exact .stays (staysAtPrompt_report s _)
  | verbose | noVerbose | unrecognized => exact .stays ⟨rfl, fun ⟨hN, hlater⟩ => ⟨hN, hlater⟩⟩

end effects

/-- Which commands write `mode` (R201). -/
theorem interpret_mode_cases (c : Command) (s : State) :
    (interpret c s).mode = s.mode ∨
    ((interpret c s).mode = .step ∧ (c = .step ∨ ∃ y, c = .next y)) ∨
    ((interpret c s).mode = .running ∧ (c = .cont ∨ ∃ y, c = .run y)) := by
  cases commandEffect s c with
  | stays h => exact .inl (by rw [h.eq])
  | steps hc ht => exact .inr (.inl ⟨ht ▸ rfl, hc⟩)
  | runs hc ht => exact .inr (.inr ⟨ht ▸ rfl, hc⟩)
  | restarts hc _ ht => exact .inr (.inr ⟨ht ▸ rfl, .inr ⟨true, hc⟩⟩)
  | quits _ ht => exact .inl (ht ▸ rfl)

/-- A match of the breakpoint check is a slot that holds `pc` (R203). -/
theorem slot_of_matchingSlot {s : State} (h : s.matchingSlot.isSome = true) :
    ∃ i, ∃ h : i < 16, ∃ a, s.bp[i] = some a ∧ a.toNat = s.pc.toNat := by
  obtain ⟨i, hi⟩ := Option.isSome_iff_exists.mp h
  obtain ⟨hlt, hm, _⟩ := (findSlot_eq_some_iff ..).mp hi
  exact ⟨i, hlt, (slotMatches_iff _ _).mp hm⟩

/-- Settles O55: a command other than a restart changes the debugger's state and the status only. -/
theorem hostChangesTheMachineOnlyByReset : Obligations.HostChangesTheMachineOnlyByReset := by
  unfold Obligations.HostChangesTheMachineOnlyByReset
  rintro c s _ rfl
  have hst := interpret_status c s
  rcases interpret_cases c s with hdbg | ⟨rfl, hs, he⟩
  · rw [hdbg.eq]
    exact ⟨rfl, rfl, rfl, rfl, rfl, hst, .inl ⟨rfl, rfl, rfl, rfl, rfl⟩⟩
  · rw [he]
    exact ⟨rfl, rfl, rfl, rfl, rfl, .inl rfl, .inr ⟨rfl, hs, ⟨rfl, rfl, rfl, rfl⟩, rfl⟩⟩

/-- Settles O56: the check writes `mode` on a match, a command by its kind, and of the instructions `HALT`. -/
theorem modeChangesOnlyAsTheTableSays : Obligations.ModeChangesOnlyAsTheTableSays := by
  unfold Obligations.ModeChangesOnlyAsTheTableSays
  intro s t h hne
  cases stepEvent_of_step h with
  | idle ht => exact absurd (congrArg State.mode ht) hne
  | check _ hd hp ht =>
    subst ht
    rw [checkPhase_mode] at hne ⊢
    by_cases hm : s.matchingSlot.isSome = true
    · exact ⟨hd, .inl ⟨if_pos hm, hp, slot_of_matchingSlot hm⟩⟩
    · exact absurd (if_neg hm) hne
  | pass _ _ _ _ ht => exact absurd (congrArg State.mode ht) hne
  | command ha c cs hc ht =>
    have hhead : s.commands.head? = some c := hc ▸ rfl
    refine ⟨ha.debugEn, ?_⟩
    rw [hhead]
    subst ht
    rcases interpret_mode_cases c { s with commands := cs } with hm | ⟨hm, hcmd⟩ | ⟨hm, hcmd⟩
    · exact absurd hm hne
    · exact .inr (.inl ⟨hm, ha, hcmd.imp (congrArg some) (Exists.imp fun _ => congrArg some)⟩)
    · exact .inr (.inr (.inl ⟨hm, ha, hcmd.imp (congrArg some) (Exists.imp fun _ => congrArg some)⟩))
  | fetchFault _ p _ _ ht => exact absurd (congrArg State.mode ht) hne
  | executes hx p _ i hi he =>
    rcases exec_mode_cases he with ⟨hm, _⟩ | ⟨rfl, hd, hm, _⟩
    · exact absurd hm hne
    · exact ⟨hd, .inr (.inr (.inr ⟨hm, hx, hi⟩))⟩

end Sys2Proof.Machine

/-! PROOFS. The invariant, kept by every action of a step and met after a full reset (spec/10_state.md section 5,
spec/60_exceptions.md section 8, spec/70_reset_and_hazards.md section 1). -/

namespace Sys2Proof.Machine

section controller
variable {s : State} (h : s.Inv) (hd : s.params.debugEn = true)
include h hd

/-- A machine reset, unlike an instruction, needs no started program (R206, R241). -/
theorem State.Inv.machineReset : s.machineReset.Inv :=
  { h with
    mem_wf := h.image_wf
    absent := fun hd' => absurd hd (ne_true_of_eq_false hd')
    unstarted := fun _ _ => ⟨rfl, rfl, rfl, rfl⟩ }

theorem State.Inv.resume (m : Mode) : (s.resume m).Inv :=
  { h with
    absent := fun hd' => absurd hd (ne_true_of_eq_false hd')
    unstarted := fun _ => nofun
    running_started := fun _ _ => rfl
    execute_started := fun _ => rfl
    prompt_not_running := nofun }

theorem State.Inv.staysAtPrompt {t : State} (ht : StaysAtPrompt s t) : t.Inv := by
  obtain ⟨heq, hordered⟩ := ht
  obtain ⟨hN, hlater⟩ := hordered ⟨h.bpN_le, h.bp_later⟩
  rw [heq]
  exact { h with
    bpN_le := hN
    bp_later := hlater
    absent := fun hd' => absurd hd (ne_true_of_eq_false hd')
    unstarted := fun _ hst => { h.unstarted hd hst with } }

/-- `quit` ends a run that has taken no fault (R217). -/
theorem State.Inv.quit (hs : s.status = .active) : { s with status := .quit }.Inv :=
  { h with
    faulted_iff := iff_of_false nofun fun hc => nomatch hs.symm.trans (h.faulted_iff.mpr hc)
    halted_disabled := nofun
    quit_enabled := fun _ => hd
    absent := fun hd' => absurd hd (ne_true_of_eq_false hd')
    unstarted := fun _ hst => { h.unstarted hd hst with } }

theorem State.Inv.interpret (hs : s.status = .active) (c : Command) : (interpret c s).Inv := by
  cases commandEffect s c with
  | stays ht => exact h.staysAtPrompt hd ht
  | steps _ ht | runs _ ht => exact ht ▸ h.resume hd _
  | restarts _ _ ht => exact ht ▸ (h.machineReset hd).resume hd .running
  | quits _ ht => exact ht ▸ h.quit hd hs

/-- What the controller has still to give is no part of the invariant. -/
theorem State.Inv.withCommands (cs : List Command) : { s with commands := cs }.Inv :=
  { h with
    absent := fun hd' => absurd hd (ne_true_of_eq_false hd')
    unstarted := fun _ hst => { h.unstarted hd hst with } }

/-- The loop goes on to an instruction only where the mode is `RUNNING` and no slot matches (R202). -/
theorem State.Inv.checkPhase : (checkPhase s).Inv := by
  rw [checkPhase_eq]
  refine { h with
    absent := fun hd' => absurd hd (ne_true_of_eq_false hd')
    unstarted := fun _ hst => { h.unstarted hd hst with }
    running_started := fun _ => ?_, execute_started := ?_, prompt_not_running := ?_ }
  · show (if _ then Mode.step else s.mode) = .running → _
    split
    · exact nofun
    · exact h.running_started hd
  · show (if _ then Phase.prompt else .execute) = .execute → _
    split
    · exact nofun
    · next hnot => exact fun _ => h.running_started hd (not_not.mp fun hm => hnot (.inr hm))
  · show (if _ then Phase.prompt else .execute) = .prompt → (if _ then Mode.step else s.mode) ≠ .running
    split
    · next hor =>
      intro _
      split
      · exact nofun
      · next hnone => exact hor.resolve_left hnone
    · exact nofun

end controller

section engine
variable {s t : State} (h : s.Inv)
include h

/-- Where the program has started, or there is no debugger, the machine may hold anything canonical (R206). -/
theorem State.Inv.withMachine (hst : s.params.debugEn = true → s.started = true) (regs : Vector Word 16) (pc : Word)
    {mem : Memory} (hm : mem.wf = true) (cycles inPos : Nat) (outLog typed : List Word) :
    { s with regs := regs, pc := pc, mem := mem, cycles := cycles, inPos := inPos, outLog := outLog, typed := typed }.Inv :=
  { h with
    mem_wf := hm
    absent := fun hd => { h.absent hd with }
    unstarted := fun hd hns => nomatch (hst hd).symm.trans hns }

/-- The engine starts at the top of the loop. -/
theorem State.Inv.withPhaseCheck : { s with phase := .check }.Inv :=
  { h with
    absent := fun hd => { h.absent hd with phase := rfl }
    unstarted := fun hd hns => { h.unstarted hd hns with }
    execute_started := nofun
    prompt_not_running := nofun }

/-- A fault enters its record together with the status, with an address outside memory (R180, R183). -/
theorem State.Inv.raiseFault {c : Cause} {a : Word} (hc : c ≠ .none) (ha : 255 < a.toNat) : (s.raiseFault c a).Inv :=
  { h with
    faulted_iff := iff_of_true rfl hc
    faultAddr_none := fun hn => absurd hn hc
    faultAddr_some := fun _ => ha
    halted_disabled := nofun
    quit_enabled := nofun
    absent := fun hd => { h.absent hd with }
    unstarted := fun hd hns => { h.unstarted hd hns with } }

/-- `HALT` with the debugger disabled ends a run that has taken no fault (R110). -/
theorem State.Inv.halted (hs : s.status = .active) (hd : s.params.debugEn = false) : { s with status := .halted }.Inv :=
  { h with
    faulted_iff := iff_of_false nofun fun hc => nomatch hs.symm.trans (h.faulted_iff.mpr hc)
    halted_disabled := fun _ => hd
    quit_enabled := nofun
    absent := fun hd => { h.absent hd with }
    unstarted := fun hd' => absurd hd' (ne_true_of_eq_false hd) }

/-- `HALT` under the debugger leaves a program not started in the reset state it needs (R110). -/
theorem State.Inv.haltUnderDebugger (hd : s.params.debugEn = true) (hp : s.phase = .check) : s.haltUnderDebugger.Inv :=
  { h.machineReset hd with
    absent := fun hd' => absurd hd (ne_true_of_eq_false hd')
    unstarted := fun _ _ => ⟨rfl, rfl, rfl, rfl⟩
    running_started := fun _ => nofun
    execute_started := fun he => nomatch hp.symm.trans he
    prompt_not_running := fun he => nomatch hp.symm.trans he }

theorem State.Inv.exec (hs : s.status = .active) (hp : s.phase = .check)
    (hst : s.params.debugEn = true → s.started = true) {i : Instr} (he : exec i s = .next t) : t.Inv := by
  have hadv : s.advance.Inv := h.withMachine hst _ _ h.mem_wf _ _ _ _
  rcases exec_next_cases he with ⟨_, hd, rfl⟩ | ⟨_, hd, rfl⟩ | ⟨_, _, rfl⟩ | ⟨_, _, _, ha, rfl⟩ | hc
  · exact hadv.halted hs hd
  · exact hadv.haltUnderDebugger hd hp
  · exact h
  · exact hadv.raiseFault nofun ha
  · have hmem := exec_keeps_mem_wf h.mem_wf h.image_wf he
    rw [hc.eq]
    exact h.withMachine hst _ _ hmem _ _ _ _

end engine

theorem State.Inv.step {s t : State} (h : s.Inv) (hstep : step s = .next t) : t.Inv := by
  have hp {p : Phase} (hp : p = .check ∨ s.params.debugEn = false ∧ p = s.phase) : p = .check :=
    hp.elim id fun ⟨hd, hps⟩ => hps.trans (h.absent hd).phase
  cases stepEvent_of_step hstep with
  | idle ht => exact ht ▸ h
  | check _ hd _ ht => exact ht ▸ h.checkPhase hd
  | pass _ hd _ hm ht =>
    rw [ht]
    exact { h with
      absent := fun hd' => absurd hd (ne_true_of_eq_false hd')
      unstarted := fun _ hns => { h.unstarted hd hns with }
      execute_started := fun _ => h.running_started hd hm
      prompt_not_running := nofun }
  | command ha c cs _ ht =>
    obtain ⟨hs, hd, _, _⟩ := ha
    exact ht ▸ (h.withCommands hd cs).interpret hd hs c
  | fetchFault hx p hpc ha ht =>
    obtain rfl := hp hpc
    exact ht ▸ h.withPhaseCheck.raiseFault nofun ha
  | executes hx p hpc i _ he =>
    obtain rfl := hp hpc
    exact h.withPhaseCheck.exec hx.1 rfl (fun hd => h.execute_started (hx.2 hd)) he

/-- After a full reset nothing has been handed out, recorded or started; the image becomes the memory (R242). -/
theorem State.startRun_inv {p : Params} (hp : p.image.wf = true) (s : State) : (State.startRun p s).Inv where
  mem_wf := hp
  image_wf := hp
  bpN_le := Nat.zero_le _
  bp_later := fun _ hi _ => Vector.getElem_replicate hi
  faulted_iff := iff_of_false nofun fun hc => hc rfl
  faultAddr_none := fun _ => rfl
  faultAddr_some := fun hc => absurd rfl hc
  halted_disabled := nofun
  quit_enabled := nofun
  absent := fun hd => ⟨if_neg (ne_true_of_eq_false hd), rfl, rfl, rfl, rfl, rfl⟩
  unstarted := fun _ _ => ⟨rfl, rfl, rfl, rfl⟩
  running_started := fun hd hm => nomatch (if_pos hd).symm.trans hm
  execute_started := nofun
  prompt_not_running := nofun

/-- Settles O58: each action of a step keeps the invariant. -/
theorem everyStepKeepsTheInvariant : Obligations.EveryStepKeepsTheInvariant := by
  unfold Obligations.EveryStepKeepsTheInvariant
  exact fun s t h => h.step

/-- Starting a run with the default parameters gives the reset state, but for what the host has pending (R242). -/
theorem startRun_default (s : State) :
    State.startRun Params.default { s with typed := [], commands := [], freeCount := 0 } = State.reset := rfl

/-- Settles O44: field by field. -/
theorem resetIsAFullReset : Obligations.ResetIsAFullReset := by
  unfold Obligations.ResetIsAFullReset
  exact startRun_default

/-- Settles O59: the reset state is the start of a run too, with an image of no cells. -/
theorem resetMeetsTheInvariant : Obligations.ResetMeetsTheInvariant := by
  unfold Obligations.ResetMeetsTheInvariant
  refine ⟨?_, fun p s hp => State.startRun_inv hp s⟩
  rw [← startRun_default State.reset]
  exact State.startRun_inv rfl _

/-- Settles O43: the registers and the memory read by read, as after a machine reset, the rest by its own assignment. -/
theorem fullResetStartsARun : Obligations.FullResetStartsARun := by
  unfold Obligations.FullResetStartsARun
  exact fun s => ⟨s.machineReset_reg, s.machineReset_memRead, rfl, rfl, rfl, rfl, rfl, rfl, rfl, rfl, rfl, rfl,
    fun _ hi => Vector.getElem_replicate hi, rfl, rfl⟩

theorem Status.eq_of_code_eq (a b : Status) : a.code = b.code → a = b := by
  cases a <;> cases b <;> decide

theorem Cause.eq_of_code_eq (a b : Cause) : a.code = b.code → a = b := by
  cases a <;> cases b <;> decide

/-- Settles O26: where the run is faulted the invariant rules out the cause `NONE`. -/
theorem exitStatusTellsHowTheRunEnded : Obligations.ExitStatusTellsHowTheRunEnded := by
  unfold Obligations.ExitStatusTellsHowTheRunEnded
  refine ⟨Status.eq_of_code_eq, Cause.eq_of_code_eq, fun s h => ?_⟩
  have hf := h.faulted_iff
  unfold State.exitStatus
  cases hst : s.status with
  | active | halted | quit => simp
  | faulted =>
    cases hc : s.cause with
    | none => exact absurd hc (hf.mp hst)
    | illegalAddress | illegalFetch => simp [Cause.code]

end Sys2Proof.Machine

/-! PROOFS. The input of the console, and the check at the top of the controller's loop (spec/10_state.md section 7,
spec/42_load_store.md R142, spec/60_exceptions.md R202 to R204). -/

namespace Sys2Proof.Machine

section load
variable {s s' : State} {rd : Reg} {w : Word}

/-- Below 255 `LOAD` is a plain read of memory (R142). -/
theorem exec_load_of_ne {addr : Addr} (h : addr ≠ 0xFF#8) :
    exec (.load rd addr) s = .next { s with
      regs := s.regs.set rd.val (s.mem.read addr.toNat), pc := s.pc + 1#16, cycles := s.cycles + 1 } :=
  if_neg h

/-- At 255 it takes the word `InRead()` gives, and the input moves on as there (R142, R191). -/
theorem exec_load_of_inRead (h : s.inRead = some (w, s')) :
    exec (.load rd 0xFF#8) s = complete (s'.advance.setReg rd w) := by
  rw [exec, execLoad, directAddress, if_pos (show 0xFF#8 = Config.ioAddr from rfl), State.inRead_advance, h]
  rfl

end load

/-- Settles O13: the queue's word, the first typed word, and none where both are spent. -/
theorem inReadTakesTheQueueThenTheHostsWords : Obligations.InReadTakesTheQueueThenTheHostsWords := by
  unfold Obligations.InReadTakesTheQueueThenTheHostsWords
  intro s
  rw [← List.getElem?_eq_none_iff]
  exact ⟨fun w => State.inRead_queue, fun w ws => State.inRead_typed, State.inRead_none_iff s⟩

/-- Settles O12, by what `InRead()` gives at 255. -/
theorem loadReadsMemoryOrTheConsole : Obligations.LoadReadsMemoryOrTheConsole := by
  unfold Obligations.LoadReadsMemoryOrTheConsole
  intro rd addr s
  rw [← List.getElem?_eq_none_iff]
  refine ⟨decode_readRdAddr rfl, exec_load_of_ne, ?queued, ?typed, ?waits⟩
  case queued =>
    rintro rfl w hw
    exact exec_load_of_inRead (State.inRead_queue hw)
  case typed =>
    rintro rfl w ws hq ht
    exact exec_load_of_inRead (State.inRead_typed hq ht)
  case waits =>
    rintro rfl hq ht
    exact exec_of_waits ((readsConsole_iff _).mpr ⟨rd, rfl⟩) ((State.inRead_none_iff s).mpr ⟨hq, ht⟩)

section check
variable {s : State} {i : Nat}

/-- The announced slot is the least that holds `pc` (R203). -/
theorem matchingSlot_eq_some {a : Addr} (hi : i < 16) (ha : s.bp[i] = some a) (hpc : a.toNat = s.pc.toNat)
    (hlow : ∀ j (_ : j < 16) (b : Addr), j < i → s.bp[j] = some b → b.toNat ≠ s.pc.toNat) :
    s.matchingSlot = some i := by
  refine (findSlot_eq_some_iff ..).mpr ⟨hi, (slotMatches_iff _ _).mpr ⟨a, ha, hpc⟩, fun j hj hlt => ?_⟩
  rw [Bool.eq_false_iff, ne_eq, slotMatches_iff]
  rintro ⟨b, hb, hbpc⟩
  exact hlow j hj b hlt hb hbpc

theorem matchingSlot_eq_none (h : ∀ i (_ : i < 16) (a : Addr), s.bp[i] = some a → a.toNat ≠ s.pc.toNat) :
    s.matchingSlot = none := by
  refine (findSlot_eq_none_iff ..).mpr fun i hi => ?_
  rw [Bool.eq_false_iff, ne_eq, slotMatches_iff]
  rintro ⟨a, ha, hpc⟩
  exact h i hi a ha hpc

theorem breakCheck_of_some (h : s.matchingSlot = some i) :
    s.breakCheck = { s with mode := .step, reports := s.reports ++ [.breakHit (i + 1) s.pc] } := by
  rw [State.breakCheck, h]; rfl

theorem breakCheck_of_none (h : s.matchingSlot = none) : s.breakCheck = s := by
  rw [State.breakCheck, h]

/-- The trace is logged after what was shown before it. -/
theorem traceIfDue_reports (s : State) : ∃ l, s.traceIfDue.reports = s.reports ++ l := by
  rcases s.traceIfDue_cases with ⟨_, _, h⟩ | ⟨_, ⟨w, _, h⟩ | ⟨_, h⟩⟩ <;> rw [h]
  · exact ⟨[], (List.append_nil _).symm⟩
  · exact ⟨_, rfl⟩
  · exact ⟨_, rfl⟩

theorem traceIfDue_mode (s : State) : s.traceIfDue.mode = s.mode := by
  rcases s.traceIfDue_cases with ⟨_, _, h⟩ | ⟨_, ⟨w, _, h⟩ | ⟨_, h⟩⟩ <;> rw [h]

theorem traceIfDue_of_not_due (hv : s.verbose = false) (hm : s.mode ≠ .step) : s.traceIfDue = s := by
  rcases s.traceIfDue_cases with ⟨_, _, h⟩ | ⟨hdue, _⟩
  · exact h
  · exact absurd hdue (by simp [hv, hm])

/-- Where the trace is due its report is the last, with the word at `pc` where there is one (R204). -/
theorem traceIfDue_getLast? (h : s.verbose = true ∨ s.mode = .step) :
    ∃ w, s.traceIfDue.reports.getLast? = some (.trace s.pc w) ∧ (s.pc.toNat ≤ 255 → w = s.mem.read s.pc.toNat) := by
  rcases s.traceIfDue_cases with ⟨hv, hm, _⟩ | ⟨_, ⟨w, hf, ht⟩ | ⟨hf, ht⟩⟩
  · exact absurd h (by simp [hv, hm])
  · rw [ht]
    exact ⟨w, List.getLast?_concat, fun hpc => Option.some.inj (hf.symm.trans (State.fetch_of_le hpc))⟩
  · rw [ht]
    exact ⟨_, List.getLast?_concat, fun hpc => nomatch hf.symm.trans (State.fetch_of_le hpc)⟩

/-- The breakpoint check reads and keeps all that the trace shows. -/
theorem breakCheck_eq (s : State) :
    s.breakCheck = { s with mode := s.breakCheck.mode, reports := s.breakCheck.reports } := by
  rcases s.breakCheck_cases with ⟨_, h⟩ | ⟨_, _, h⟩ <;> rw [h]

end check

/-- Settles O45: the check as a whole by its frame, the slot announced by the least match. -/
theorem breakpointCheckForcesStepMode : Obligations.BreakpointCheckForcesStepMode := by
  unfold Obligations.BreakpointCheckForcesStepMode
  intro s hs hd hp
  refine ⟨checkPhase s, step_of_check hs hd hp, fun i hi a ha hpc hlow => ?_, fun hnone => ?_, ?_⟩
  · have hm := matchingSlot_eq_some hi ha hpc hlow
    obtain ⟨l, hl⟩ := traceIfDue_reports s.breakCheck
    rw [checkPhase_mode, checkPhase_phase, hm]
    refine ⟨rfl, if_pos (.inl rfl), l, ?_⟩
    rw [show (checkPhase s).reports = s.breakCheck.traceIfDue.reports from rfl, hl, breakCheck_of_some hm]
  · rw [checkPhase_mode, checkPhase_phase, matchingSlot_eq_none hnone]
    simp
  · conv_lhs => rw [checkPhase_eq]
    rw [checkPhase_mode, checkPhase_phase]

/-- Settles O46: the trace follows the breakpoint check, which keeps `verbose`, `pc` and memory. -/
theorem traceIsShownWhenVerboseOrStepping : Obligations.TraceIsShownWhenVerboseOrStepping := by
  unfold Obligations.TraceIsShownWhenVerboseOrStepping
  intro s t hs hd hp h
  obtain rfl := Host.Outcome.next.inj ((step_of_check hs hd hp).symm.trans h)
  have hmode : (checkPhase s).mode = s.breakCheck.mode := traceIfDue_mode s.breakCheck
  have hreports : (checkPhase s).reports = s.breakCheck.traceIfDue.reports := rfl
  have hkeep := breakCheck_eq s
  rw [hmode, hreports]
  constructor
  · intro hdue
    have hlast := traceIfDue_getLast? (s := s.breakCheck) (by rw [hkeep]; exact hdue)
    rw [hkeep] at hlast ⊢
    exact hlast
  · rintro ⟨hv, hm⟩
    rw [traceIfDue_of_not_due (by rw [hkeep]; exact hv) hm]
    rcases s.breakCheck_cases with ⟨_, hb⟩ | ⟨_, _, hb⟩
    · rw [hb]
    · exact absurd (by rw [hb]) hm

end Sys2Proof.Machine

/-! PROOFS. What no instruction but `HALT` can see: the cycle count and the debugger (spec/10_state.md R27,
spec/60_exceptions.md R200, R223). -/

namespace Sys2Proof.Machine

/-- The next state of an outcome, changed. -/
def mapNext (f : State → State) : Host.Outcome State Fault Refusal → Host.Outcome State Fault Refusal
  | .next t => .next (f t)
  | .fault r => .fault r
  | .refused r => .refused r

@[simp] theorem mapNext_next (f : State → State) (t : State) : mapNext f (.next t) = .next (f t) := rfl

/-- A change of what no instruction but `HALT` sees: the cycle count, in a way that the count of one more commutes with, and
the debugger, present or not (R27, R200). -/
structure Unseen where
  cycles : Nat → Nat := id
  debugEn : Bool → Bool := id
  mode : Mode → Mode := id
  bp : Vector (Option Addr) 16 → Vector (Option Addr) 16 := id
  bpN : Nat → Nat := id
  verbose : Bool → Bool := id
  started : Bool → Bool := id
  phase : Phase → Phase := id
  cycles_succ : ∀ n, cycles (n + 1) = cycles n + 1 := by exact fun _ => rfl

/-- The state with the change made. -/
def Unseen.on (u : Unseen) (s : State) : State :=
  { s with
    cycles := u.cycles s.cycles, params := { s.params with debugEn := u.debugEn s.params.debugEn }, mode := u.mode s.mode
    bp := u.bp s.bp, bpN := u.bpN s.bpN, verbose := u.verbose s.verbose, started := u.started s.started
    phase := u.phase s.phase }

namespace Unseen
variable (u : Unseen) (s : State)

/-! The operations of the instructions neither see the change nor undo it. -/

@[simp] theorem on_pc : (u.on s).pc = s.pc := rfl
@[simp] theorem on_reg (r : Reg) : (u.on s).reg r = s.reg r := rfl
@[simp] theorem on_memRead (a : Addr) : (u.on s).memRead a = s.memRead a := rfl
@[simp] theorem on_fetch : (u.on s).fetch = s.fetch := rfl
@[simp] theorem on_indirectAddress (rt : Reg) : (u.on s).indirectAddress rt = s.indirectAddress rt := rfl
@[simp] theorem on_advance : (u.on s).advance = u.on s.advance := rfl
@[simp] theorem on_setReg (r : Reg) (v : Word) : (u.on s).setReg r v = u.on (s.setReg r v) := rfl
@[simp] theorem on_setPc (v : Word) : (u.on s).setPc v = u.on (s.setPc v) := rfl
@[simp] theorem on_memWrite (a : Addr) (v : Word) : (u.on s).memWrite a v = u.on (s.memWrite a v) := rfl
@[simp] theorem on_outWrite (v : Word) : (u.on s).outWrite v = u.on (s.outWrite v) := rfl
@[simp] theorem on_raiseFault (c : Cause) (a : Word) : (u.on s).raiseFault c a = u.on (s.raiseFault c a) := rfl

@[simp] theorem on_retire : (u.on s).retire = u.on s.retire := by
  simp only [State.retire, on, u.cycles_succ]

@[simp] theorem on_inRead : (u.on s).inRead = s.inRead.map (fun p => (p.1, u.on p.2)) := by
  unfold State.inRead
  simp only [on]
  split
  · rfl
  · split <;> rfl

@[simp] theorem on_printStored (a : Addr) : (u.on s).printStored a = u.on (s.printStored a) := by
  simp only [State.printStored, on_memRead, on_outWrite, apply_ite u.on]

@[simp] theorem on_complete : complete (u.on s) = mapNext u.on (complete s) :=
  congrArg Host.Outcome.next (u.on_retire s)

theorem on_aluOp (g : Word → Word → Word) (rd rs rt : Reg) : aluOp g rd rs rt (u.on s) = mapNext u.on (aluOp g rd rs rt s) := by
  simp [aluOp]

@[simp] theorem on_branchIf (c : Bool) (addr : Addr) : branchIf c addr (u.on s) = mapNext u.on (branchIf c addr s) := by
  cases c <;> simp [branchIf]

/-- Every instruction but `HALT` does the same under the change, waits and faults included. -/
theorem exec_on {i : Instr} (hi : i ≠ .halt) : exec i (u.on s) = mapNext u.on (exec i s) := by
  cases i with
  | halt => exact absurd rfl hi
  | add | sub | and | xor | shl | shr => exact u.on_aluOp ..
  | load rd addr =>
    simp only [exec, execLoad, on_advance, on_inRead, on_memRead, on_setReg, on_complete]
    split
    · cases s.advance.inRead <;> simp
    · rfl
  | loadr rd rt =>
    simp only [exec, execLoadr, on_advance, on_indirectAddress]
    cases s.advance.indirectAddress rt <;> simp
  | storer rd rt =>
    simp only [exec, execStorer, on_advance, on_indirectAddress]
    cases s.advance.indirectAddress rt <;> simp
  | loadi | store | beqz | bgtz | jr | jalr =>
    simp [exec, execLoadi, execStore, execBeqz, execBgtz, execJr, execJalr]

/-- Whether the instruction is held for input depends on the instruction and the input only (R106). -/
theorem on_heldForInput : (u.on s).heldForInput = s.heldForInput := by
  simp only [State.heldForInput, on_fetch, on_inRead, Option.isNone_map]

theorem engineStep_on (h : s.instrAtPc ≠ some .halt) : engineStep (u.on s) = mapNext u.on (engineStep s) := by
  simp only [engineStep, on_fetch]
  cases hw : s.fetch with
  | none => simp
  | some w => exact u.exec_on s (fun hd => h (by rw [State.instrAtPc, hw, Option.map_some, hd]))

end Unseen

/-! ## The debugger -/

/-- Another debugger, present or not. -/
def Unseen.debugger (en : Bool) (m : Mode) (b : Vector (Option Addr) 16) (n : Nat) (v st : Bool) (p : Phase) : Unseen where
  debugEn _ := en
  mode _ := m
  bp _ := b
  bpN _ := n
  verbose _ := v
  started _ := st
  phase _ := p

/-- The debugger disabled and all else as it is. -/
def Unseen.debuggerOff : Unseen where
  debugEn _ := false

/-- The engine leaves the loop position and the parameters, whatever it does. -/
theorem engineStep_phase_params {s t : State} (h : engineStep s = .next t) : t.phase = s.phase ∧ t.params = s.params := by
  rcases engineStep_cases s with ⟨_, _, he⟩ | ⟨_, i, _, he⟩
  · obtain rfl := Host.Outcome.next.inj (he.symm.trans h)
    exact ⟨rfl, rfl⟩
  · have hkept := exec_controlKept (he.symm.trans h)
    exact ⟨hkept.phase, hkept.params⟩

/-- Settles O40: no instruction but `HALT` sees the debugger, and none changes a parameter. -/
theorem debuggerDoesNotChangeInstructions : Obligations.DebuggerDoesNotChangeInstructions := by
  unfold Obligations.DebuggerDoesNotChangeInstructions
  intro i s t en m b n v st p hi h
  have he := ((Unseen.debugger en m b n v st p).exec_on s hi).trans (congrArg (mapNext _) h)
  simp only [mapNext_next, Unseen.on, (exec_controlKept h).params] at he
  exact he

section freeRun
variable {s : State}

/-- `RUNNING`, with no match and nothing to trace, the check only moves the loop on (R202). -/
theorem checkPhase_of_running (hm : s.mode = .running) (hv : s.verbose = false) (hnone : s.matchingSlot = none) :
    checkPhase s = { s with phase := .execute } := by
  have hstep : s.mode ≠ .step := by rw [hm]; decide
  rw [checkPhase, breakCheck_of_none hnone, traceIfDue_of_not_due hv hstep, if_pos hm]

/-- Held for input, the engine's step would change nothing (R106). -/
theorem engineStep_of_heldForInput (h : s.heldForInput = true) : engineStep s = .next s := by
  obtain ⟨⟨rd, hload⟩, hr⟩ := (heldForInput_iff s).mp h
  rcases engineStep_cases s with ⟨_, hi, _⟩ | ⟨_, i, hi, he⟩
  · exact nomatch hi.symm.trans hload
  · obtain rfl := Option.some.inj (hi.symm.trans hload)
    exact he.trans (exec_of_waits ((readsConsole_iff _).mpr ⟨rd, rfl⟩) hr)

end freeRun

/-- Settles O57: the check moves the loop on, and the engine, to which the debugger is invisible, does the rest, or the
instruction is held in both machines. -/
theorem runningUnderTheDebuggerIsFreeRun : Obligations.RunningUnderTheDebuggerIsFreeRun := by
  unfold Obligations.RunningUnderTheDebuggerIsFreeRun
  intro s hs hd hp hm hv hslots hhalt
  have hself : { s with phase := .check } = s := by rw [← hp]
  have hcheck := (step_of_check hs hd hp).trans
    (congrArg Host.Outcome.next (checkPhase_of_running hm hv (matchingSlot_eq_none hslots)))
  obtain ⟨u, hu⟩ := engineStep_next s
  obtain ⟨huphase, huparams⟩ := engineStep_phase_params hu
  have hoff : step (Unseen.debuggerOff.on s) = .next (Unseen.debuggerOff.on u) := by
    rw [step_freeRun (s := Unseen.debuggerOff.on s) hs rfl, Unseen.engineStep_on _ _ hhalt, hu, mapNext_next]
  have hexec := step_of_execute (s := { s with phase := .execute }) hs hd rfl
  rw [hself, show ({ s with phase := .execute } : State).heldForInput = s.heldForInput from
    Unseen.on_heldForInput { phase := fun _ => .execute } s] at hexec
  have huoff : Unseen.debuggerOff.on u =
      { u with params := { s.params with debugEn := false }, phase := .check } := by
    rw [← huparams, ← huphase.trans hp]; rfl
  cases hheld : s.heldForInput with
  | true =>
    rw [hheld, if_pos rfl] at hexec
    obtain rfl := Host.Outcome.next.inj ((engineStep_of_heldForInput hheld).symm.trans hu)
    exact ⟨_, _, _, hcheck, hexec, hoff, huoff, .inr ⟨rfl, rfl⟩⟩
  | false =>
    rw [hheld, if_neg Bool.false_ne_true, hu] at hexec
    exact ⟨_, u, _, hcheck, hexec, hoff, huoff, .inl (huphase.trans hp)⟩

/-! ## The cycle counter -/

/-- `k` more cycles. -/
def Unseen.addCycles (k : Nat) : Unseen where
  cycles n := k + n

/-- The state without its cycle count. -/
def State.forgetCycles (s : State) : State := { s with cycles := 0 }

section cycles
variable (k : Nat) (s : State)

theorem mapNext_forgetCycles_addCycles (o : Host.Outcome State Fault Refusal) :
    mapNext State.forgetCycles (mapNext (Unseen.addCycles k).on o) = mapNext State.forgetCycles o := by
  cases o <;> rfl

/-- `HALT` under the debugger forgets the count, every other instruction adds to it or leaves it. -/
theorem exec_addCycles (i : Instr) :
    mapNext State.forgetCycles (exec i ((Unseen.addCycles k).on s)) = mapNext State.forgetCycles (exec i s) := by
  by_cases hi : i = .halt
  · subst hi
    cases hd : s.params.debugEn with
    | false => rw [exec_halt_of_disabled hd, exec_halt_of_disabled (s := (Unseen.addCycles k).on s) hd]; rfl
    | true => rw [exec_halt_of_enabled hd, exec_halt_of_enabled (s := (Unseen.addCycles k).on s) hd]; rfl
  · rw [Unseen.exec_on _ _ hi, mapNext_forgetCycles_addCycles]

theorem engineStep_addCycles :
    mapNext State.forgetCycles (engineStep ((Unseen.addCycles k).on s)) = mapNext State.forgetCycles (engineStep s) := by
  simp only [engineStep, Unseen.on_fetch]
  cases s.fetch with
  | none => rfl
  | some w => exact exec_addCycles k s (decode w)

theorem checkPhase_addCycles : checkPhase ((Unseen.addCycles k).on s) = (Unseen.addCycles k).on (checkPhase s) := by
  have hbreak : ((Unseen.addCycles k).on s).breakCheck = (Unseen.addCycles k).on s.breakCheck := by
    cases hm : s.matchingSlot with
    | none => rw [breakCheck_of_none hm, breakCheck_of_none (s := (Unseen.addCycles k).on s) hm]
    | some i => rw [breakCheck_of_some hm, breakCheck_of_some (s := (Unseen.addCycles k).on s) hm]; rfl
  have htrace (t : State) : ((Unseen.addCycles k).on t).traceIfDue = (Unseen.addCycles k).on t.traceIfDue := by
    simp only [State.traceIfDue, Unseen.on_fetch]
    cases t.fetch <;> simp only [apply_ite (Unseen.addCycles k).on] <;> rfl
  rw [checkPhase, hbreak, htrace]
  rfl

theorem addBreakpoint_addCycles (a : Addr) :
    ((Unseen.addCycles k).on s).addBreakpoint a = (Unseen.addCycles k).on (s.addBreakpoint a) := by
  unfold State.addBreakpoint
  rw [show ((Unseen.addCycles k).on s).emptySlot = s.emptySlot from rfl]
  cases s.emptySlot <;> simp only [apply_ite (Unseen.addCycles k).on] <;> rfl

theorem deleteBreakpoint_addCycles (n : Nat) :
    ((Unseen.addCycles k).on s).deleteBreakpoint n = (Unseen.addCycles k).on (s.deleteBreakpoint n) := by
  simp only [State.deleteBreakpoint, apply_ite (Unseen.addCycles k).on]
  rfl

/-- Of the commands only a restart writes the count, and it does not read it. -/
theorem interpret_addCycles (c : Command) :
    (interpret c ((Unseen.addCycles k).on s)).forgetCycles = (interpret c s).forgetCycles := by
  cases c with
  | run confirm =>
    simp only [interpret, cmdRun, apply_ite State.forgetCycles]
    rfl
  | next confirm =>
    simp only [interpret, cmdNext, apply_ite State.forgetCycles]
    rfl
  | brk a =>
    cases a <;> simp only [interpret, cmdBreak, addBreakpoint_addCycles, apply_ite State.forgetCycles] <;> rfl
  | delete n =>
    cases n <;> simp only [interpret, cmdDelete, deleteBreakpoint_addCycles, apply_ite State.forgetCycles] <;> rfl
  | list arg =>
    cases arg <;> simp only [interpret, cmdList, apply_ite State.forgetCycles] <;> rfl
  | _ => rfl

theorem promptPhase_addCycles :
    (promptPhase ((Unseen.addCycles k).on s)).forgetCycles = (promptPhase s).forgetCycles := by
  by_cases hm : s.mode = .running
  · rw [promptPhase, promptPhase, if_pos hm, if_pos (show ((Unseen.addCycles k).on s).mode = .running from hm)]
    rfl
  · cases hc : s.commands with
    | nil => rw [promptPhase_of_nil hm hc, promptPhase_of_nil (s := (Unseen.addCycles k).on s) hm hc]; rfl
    | cons c cs =>
      rw [promptPhase_of_cons hm hc, promptPhase_of_cons (s := (Unseen.addCycles k).on s) hm hc]
      exact interpret_addCycles k { s with commands := cs } c

theorem step_addCycles :
    mapNext State.forgetCycles (step ((Unseen.addCycles k).on s)) = mapNext State.forgetCycles (step s) := by
  by_cases hs : s.status = .active
  case neg => rw [step_of_ended hs, step_of_ended (s := (Unseen.addCycles k).on s) hs]; rfl
  cases hd : s.params.debugEn with
  | false =>
    rw [step_freeRun hs hd, step_freeRun (s := (Unseen.addCycles k).on s) hs hd]
    exact engineStep_addCycles k s
  | true =>
    cases hp : s.phase with
    | check =>
      rw [step_of_check hs hd hp, step_of_check (s := (Unseen.addCycles k).on s) hs hd hp, checkPhase_addCycles]
      rfl
    | prompt =>
      rw [step_of_prompt hs hd hp, step_of_prompt (s := (Unseen.addCycles k).on s) hs hd hp]
      exact congrArg Host.Outcome.next (promptPhase_addCycles k s)
    | execute =>
      rw [step_of_execute hs hd hp, step_of_execute (s := (Unseen.addCycles k).on s) hs hd hp, Unseen.on_heldForInput]
      split
      · rfl
      · exact engineStep_addCycles k { s with phase := .check }

end cycles

/-- Settles O39: both states come from the one with no cycles counted, by adding cycles to it. -/
theorem cyclesCannotBeObserved : Obligations.CyclesCannotBeObserved := by
  unfold Obligations.CyclesCannotBeObserved
  intro s t n h
  obtain ⟨t', ht'⟩ := step_next { s with cycles := n }
  refine ⟨t', ht', ?_⟩
  have hn : mapNext State.forgetCycles (step { s with cycles := n }) = _ := step_addCycles n s.forgetCycles
  have hs : mapNext State.forgetCycles (step s) = _ := step_addCycles s.cycles s.forgetCycles
  rw [ht'] at hn
  rw [h] at hs
  exact Host.Outcome.next.inj (hn.trans hs.symm)

end Sys2Proof.Machine
